-- ==== Sys2Proof/Word.lean ====
section
/-! DEFINITION. The word and byte types (spec/00_scope.md R6). A word is the hardware's one unit of
registers, memory, addresses and instructions. -/

namespace Sys2Proof

/-- A 16-bit word: every register, memory word, address and instruction (R5 `XLEN`, R6). -/
abbrev Word := BitVec 16

/-- An 8-bit character code, the unit of the host's ports (R12) and half of a stored word. -/
abbrev Byte := BitVec 8

end Sys2Proof
end

