-- ==== Sys2Proof/Config.lean ====
section
/-! DEFINITION. The implementation parameters of spec/00_scope.md R5, each a named constant. The
spec asks that they be kept as named values and not as literals in the machine; every number below
that the document does not print is the spec's decision (log entries 2 to 8, 12, 21, 32). -/

namespace Sys2Proof.Config

/-! Opcode numbers, R5 and R47. PRESUMED by the spec (D1), log 8, unsafe. -/

def opcBr : BitVec 4 := 0
def opcAdd : BitVec 4 := 1
def opcLd : BitVec 4 := 2
def opcSt : BitVec 4 := 3
def opcJsr : BitVec 4 := 4
def opcAnd : BitVec 4 := 5
def opcLdr : BitVec 4 := 6
def opcStr : BitVec 4 := 7
def opcRti : BitVec 4 := 8
def opcNot : BitVec 4 := 9
def opcLdi : BitVec 4 := 10
def opcSti : BitVec 4 := 11
def opcJmp : BitVec 4 := 12
def opcRes : BitVec 4 := 13
def opcLea : BitVec 4 := 14
def opcTrap : BitVec 4 := 15

/-! Codes of the three condition states, R5 and R18. PRESUMED by the spec (D5), log 7, unsafe. -/

/-- POSITIVE. -/
def flPos : Word := 0x0001
/-- ZERO. -/
def flZro : Word := 0x0002
/-- NEGATIVE. -/
def flNeg : Word := 0x0004

/-! Addresses, R5 and R40. PRESUMED by the spec (D6, D7), log 5 and 6, unsafe. -/

/-- `PC_START`, the address of the first instruction fetched. -/
def pcStart : Word := 0x3000
/-- `KBSR_ADDR`, the keyboard status register's address. -/
def kbsrAddr : Word := 0xFE00
/-- `KBDR_ADDR`, the keyboard data register's address. -/
def kbdrAddr : Word := 0xFE02

/-- The word the shim stores in the status register when a keystroke was pending (R34). DESIGN
CHOICE of the spec (D8: the whole word is assigned), log 12, unsafe. -/
def kbsrReady : Word := 0x8000
/-- The word the shim stores in the status register when none was pending (R34). -/
def kbsrIdle : Word := 0x0000

/-! Trap vectors, R5 and R57: the document's own numbers. -/

def trapGetc : Byte := 0x20
def trapOut : Byte := 0x21
def trapPuts : Byte := 0x22
def trapIn : Byte := 0x23
def trapPutsp : Byte := 0x24
def trapHalt : Byte := 0x25

/-- `IN_PROMPT`, the bytes of "Enter a character: " (R5, R91). PRESUMED by the spec (D17), log 21,
unsafe. -/
def inPrompt : List Byte :=
  [0x45, 0x6E, 0x74, 0x65, 0x72, 0x20, 0x61, 0x20, 0x63, 0x68] ++
  [0x61, 0x72, 0x61, 0x63, 0x74, 0x65, 0x72, 0x3A, 0x20]

/-- `MEM_WORDS`, the number of memory words (R5, R13): the document's own number. -/
def memWords : Nat := 65536

/-! The three OPEN parameters of R5 and R27 at the spec's simulator defaults. -/

/-- `GPR_RESET`, one value for all eight registers. DESIGN CHOICE, log 3, unsafe. -/
def gprReset : Word := 0
/-- `COND_RESET`. DESIGN CHOICE, log 4, unsafe. -/
def condReset : Word := flZro
/-- What a byte of memory that nothing has written reads as (`MEM_RESET`: every word 0). DESIGN
CHOICE, log 2, unsafe. -/
def memUnlisted : Byte := 0

end Sys2Proof.Config
end

