-- ==== Sys2Proof/Syntax.lean ====
section
/-! DEFINITION. The instructions: one constructor per row of spec/opcode_table.json, with the fields
of its format (spec/30_encoding.md R47 to R58). Immediates and offsets are kept as the bit fields of
the word (R59: "taken as it stands"); they are sign-extended where they are used. Ignored bits
(R61) are not kept (DESIGN CHOICE, log 11, safe). -/

namespace Sys2Proof

/-- The eight general-purpose registers, R14. -/
inductive Reg where
  | r0 | r1 | r2 | r3 | r4 | r5 | r6 | r7
  deriving DecidableEq, Repr

/-- The instruction set, R2 and R47; the six trap services are rows of their own (R57). -/
inductive Instr where
  /-- BR, R73: `nzp` is the 3-bit condition mask. -/
  | br (nzp : BitVec 3) (off : BitVec 9)
  /-- ADD, register form, R66. -/
  | addReg (dr sr1 sr2 : Reg)
  /-- ADD, immediate form, R67. -/
  | addImm (dr sr1 : Reg) (imm : BitVec 5)
  /-- LD, R78. -/
  | ld (dr : Reg) (off : BitVec 9)
  /-- ST, R82. -/
  | st (sr : Reg) (off : BitVec 9)
  /-- JSRR, R76. -/
  | jsrr (base : Reg)
  /-- JSR, R75. -/
  | jsr (off : BitVec 11)
  /-- AND, register form, R68. -/
  | andReg (dr sr1 sr2 : Reg)
  /-- AND, immediate form, R69. -/
  | andImm (dr sr1 : Reg) (imm : BitVec 5)
  /-- LDR, R80. -/
  | ldr (dr base : Reg) (off : BitVec 6)
  /-- STR, R84. -/
  | str (sr base : Reg) (off : BitVec 6)
  /-- RTI, R95: a reserved opcode that does nothing. -/
  | rti
  /-- NOT, R70. -/
  | not (dr sr : Reg)
  /-- LDI, R79. -/
  | ldi (dr : Reg) (off : BitVec 9)
  /-- STI, R83. -/
  | sti (sr : Reg) (off : BitVec 9)
  /-- JMP, R74 (RET when the base is R7). -/
  | jmp (base : Reg)
  /-- RES, R96: a reserved opcode that does nothing. -/
  | res
  /-- LEA, R81. -/
  | lea (dr : Reg) (off : BitVec 9)
  /-- GETC, R88: TRAP with vector 0x20. -/
  | getc
  /-- OUT, R89: TRAP with vector 0x21. -/
  | out
  /-- PUTS, R90: TRAP with vector 0x22. -/
  | puts
  /-- IN, R91: TRAP with vector 0x23. -/
  | inp
  /-- PUTSP, R92: TRAP with vector 0x24. -/
  | putsp
  /-- HALT, R93: TRAP with vector 0x25. -/
  | halt
  /-- TRAP with any other vector, R86 and R94. -/
  | trap (vec : Byte)
  deriving DecidableEq, Repr

end Sys2Proof
end

