-- ==== Sys2Proof/WellFormed.lean ====
section
/-! DEFINITION. Which instruction terms are ones that the decoder can produce. Every operand is in
range by its type; the one check is that the generic TRAP constructor does not carry a vector that
spec/30_encoding.md R57 gives to one of the six services (log 31). -/

namespace Sys2Proof

/-- The vectors with a service, R57. -/
def serviceVectors : List Byte :=
  [Config.trapGetc, Config.trapOut, Config.trapPuts, Config.trapIn, Config.trapPutsp,
   Config.trapHalt]

/-- The check, as a Bool. -/
def Instr.wellFormed : Instr → Bool
  | .trap vec => !serviceVectors.contains vec
  | .br _ _ | .addReg _ _ _ | .addImm _ _ _ | .ld _ _ | .st _ _ | .jsrr _ | .jsr _ | .andReg _ _ _
  | .andImm _ _ _ | .ldr _ _ _ | .str _ _ _ | .rti | .not _ _ | .ldi _ _ | .sti _ _ | .jmp _ | .res
  | .lea _ _ | .getc | .out | .puts | .inp | .putsp | .halt => true

/-- The check, as a proposition. -/
abbrev Instr.WellFormed (i : Instr) : Prop := i.wellFormed = true

end Sys2Proof
end

