-- ==== Sys2Proof/Decode.lean ====
section
/-! DEFINITION. Bit fields and byte order, the total decoder and the encoder, and the opcode map as
data (spec/30_encoding.md R45 to R62). Field places, opcode numbers and flag polarities are the
spec's decisions D1 to D4 (PRESUMED, log 8 to 11). -/

namespace Sys2Proof

/-! ## Bytes of a word -/

/-- "low byte", `v[7:0]` (R6). -/
def lowByte (v : Word) : Byte := v.extractLsb 7 0

/-- "high byte", `v[15:8]` (R6). -/
def highByte (v : Word) : Byte := v.extractLsb 15 8

/-- The word with the given high and low bytes, `hi ++ lo` (R6). -/
def wordOfBytes (hi lo : Byte) : Word := hi ++ lo

/-- `zext_16` of an 8-bit value (R9). -/
def zextByte (b : Byte) : Word := b.setWidth 16

/-! ## Register numbers -/

/-- The register a 3-bit field names (R14). -/
def Reg.ofBits (b : BitVec 3) : Reg :=
  if b = 0 then .r0 else if b = 1 then .r1 else if b = 2 then .r2 else if b = 3 then .r3
  else if b = 4 then .r4 else if b = 5 then .r5 else if b = 6 then .r6 else .r7

/-- The number of a register (R14). -/
def Reg.bits : Reg → BitVec 3
  | .r0 => 0 | .r1 => 1 | .r2 => 2 | .r3 => 3 | .r4 => 4 | .r5 => 5 | .r6 => 6 | .r7 => 7

/-! ## Fields of an instruction word, R48 to R57 -/

/-- `instr[15:12]`, the opcode (R46). -/
def opcodeOf (w : Word) : BitVec 4 := w.extractLsb 15 12

/-- The register named by bits 11..9: `dr`, or `sr` of a store (R49 to R51, R55, R56). -/
def regAt11 (w : Word) : Reg := Reg.ofBits (w.extractLsb 11 9)

/-- The register named by bits 8..6: `sr1`, `sr` of NOT, `baser` (R49 to R51, R53, R56). -/
def regAt8 (w : Word) : Reg := Reg.ofBits (w.extractLsb 8 6)

/-- The register named by bits 2..0: `sr2` (R49). -/
def regAt2 (w : Word) : Reg := Reg.ofBits (w.extractLsb 2 0)

/-- `nzp` (R52). -/
def nzpOf (w : Word) : BitVec 3 := w.extractLsb 11 9

/-- `imm5` (R50). -/
def imm5Of (w : Word) : BitVec 5 := w.extractLsb 4 0

/-- `offset6` (R56). -/
def offset6Of (w : Word) : BitVec 6 := w.extractLsb 5 0

/-- `pcoffset9` (R52, R55). -/
def pcoffset9Of (w : Word) : BitVec 9 := w.extractLsb 8 0

/-- `pcoffset11` (R54). -/
def pcoffset11Of (w : Word) : BitVec 11 := w.extractLsb 10 0

/-- `trapvect8`, the "low byte of instruction" (R57). -/
def trapvect8Of (w : Word) : Byte := w.extractLsb 7 0

/-- `imm-flag`, bit 5 of ADD and AND; set selects the immediate form (R60). -/
def immFlag (w : Word) : Bool := w.getLsbD 5

/-- `long-flag`, bit 11 of opcode 4; set selects JSR (R60). -/
def longFlag (w : Word) : Bool := w.getLsbD 11

/-! ## The decoder -/

/-- The sub-decode of a TRAP word on its vector, R57 and R86. -/
def decodeTrap (v : Byte) : Instr :=
  if v = Config.trapGetc then .getc
  else if v = Config.trapOut then .out
  else if v = Config.trapPuts then .puts
  else if v = Config.trapIn then .inp
  else if v = Config.trapPutsp then .putsp
  else if v = Config.trapHalt then .halt
  else .trap v

/-- The decoder, total on all 65536 words (R46, R47). -/
def decode (w : Word) : Instr :=
  if opcodeOf w = Config.opcBr then .br (nzpOf w) (pcoffset9Of w)
  else if opcodeOf w = Config.opcAdd then
    if immFlag w then .addImm (regAt11 w) (regAt8 w) (imm5Of w)
    else .addReg (regAt11 w) (regAt8 w) (regAt2 w)
  else if opcodeOf w = Config.opcLd then .ld (regAt11 w) (pcoffset9Of w)
  else if opcodeOf w = Config.opcSt then .st (regAt11 w) (pcoffset9Of w)
  else if opcodeOf w = Config.opcJsr then
    if longFlag w then .jsr (pcoffset11Of w) else .jsrr (regAt8 w)
  else if opcodeOf w = Config.opcAnd then
    if immFlag w then .andImm (regAt11 w) (regAt8 w) (imm5Of w)
    else .andReg (regAt11 w) (regAt8 w) (regAt2 w)
  else if opcodeOf w = Config.opcLdr then .ldr (regAt11 w) (regAt8 w) (offset6Of w)
  else if opcodeOf w = Config.opcStr then .str (regAt11 w) (regAt8 w) (offset6Of w)
  else if opcodeOf w = Config.opcRti then .rti
  else if opcodeOf w = Config.opcNot then .not (regAt11 w) (regAt8 w)
  else if opcodeOf w = Config.opcLdi then .ldi (regAt11 w) (pcoffset9Of w)
  else if opcodeOf w = Config.opcSti then .sti (regAt11 w) (pcoffset9Of w)
  else if opcodeOf w = Config.opcJmp then .jmp (regAt8 w)
  else if opcodeOf w = Config.opcRes then .res
  else if opcodeOf w = Config.opcLea then .lea (regAt11 w) (pcoffset9Of w)
  else decodeTrap (trapvect8Of w)

/-- Why a byte sequence holds no instruction. No word is illegal (R46), so a short sequence is the
only case. -/
inductive DecodeError where
  /-- Fewer than the two bytes of one instruction word. -/
  | truncated
  deriving DecidableEq, Repr

/-- The decoder on bytes in the order of a program image, high byte first (R37, R108): the
instruction and the bytes after it. -/
def decodeBytes : List Byte → Except DecodeError (Instr × List Byte)
  | hi :: lo :: rest => .ok (decode (wordOfBytes hi lo), rest)
  | _ => .error .truncated

/-- The decoder's reading of an instruction given as a row's bits, numbered as
spec/opcode_table.json numbers them (bit 0 the least significant bit of the one word). -/
def decodeTableWord (nbits w : Nat) : Option Instr :=
  if nbits = 0 ∨ 16 < nbits then none
  else
    match decodeBytes [BitVec.ofNat 8 (w % 2 ^ nbits / 256), BitVec.ofNat 8 (w % 2 ^ nbits)] with
    | .ok (i, _) => some i
    | .error _ => none

/-! ## The encoder -/

/-- The word of an instruction; ignored bits get the conventional values of R61 (0, and 1s in
NOT's bits 5..0). -/
def encode : Instr → Word
  | .br nzp off => Config.opcBr ++ nzp ++ off
  | .addReg dr sr1 sr2 => Config.opcAdd ++ dr.bits ++ sr1.bits ++ 0#1 ++ 0#2 ++ sr2.bits
  | .addImm dr sr1 imm => Config.opcAdd ++ dr.bits ++ sr1.bits ++ 1#1 ++ imm
  | .ld dr off => Config.opcLd ++ dr.bits ++ off
  | .st sr off => Config.opcSt ++ sr.bits ++ off
  | .jsrr base => Config.opcJsr ++ 0#1 ++ 0#2 ++ base.bits ++ 0#6
  | .jsr off => Config.opcJsr ++ 1#1 ++ off
  | .andReg dr sr1 sr2 => Config.opcAnd ++ dr.bits ++ sr1.bits ++ 0#1 ++ 0#2 ++ sr2.bits
  | .andImm dr sr1 imm => Config.opcAnd ++ dr.bits ++ sr1.bits ++ 1#1 ++ imm
  | .ldr dr base off => Config.opcLdr ++ dr.bits ++ base.bits ++ off
  | .str sr base off => Config.opcStr ++ sr.bits ++ base.bits ++ off
  | .rti => Config.opcRti ++ 0#12
  | .not dr sr => Config.opcNot ++ dr.bits ++ sr.bits ++ 0x3F#6
  | .ldi dr off => Config.opcLdi ++ dr.bits ++ off
  | .sti sr off => Config.opcSti ++ sr.bits ++ off
  | .jmp base => Config.opcJmp ++ 0#3 ++ base.bits ++ 0#6
  | .res => Config.opcRes ++ 0#12
  | .lea dr off => Config.opcLea ++ dr.bits ++ off
  | .getc => Config.opcTrap ++ 0#4 ++ Config.trapGetc
  | .out => Config.opcTrap ++ 0#4 ++ Config.trapOut
  | .puts => Config.opcTrap ++ 0#4 ++ Config.trapPuts
  | .inp => Config.opcTrap ++ 0#4 ++ Config.trapIn
  | .putsp => Config.opcTrap ++ 0#4 ++ Config.trapPutsp
  | .halt => Config.opcTrap ++ 0#4 ++ Config.trapHalt
  | .trap vec => Config.opcTrap ++ 0#4 ++ vec

/-! ## The opcode map as data, R47 -/

/-- One row of R47's table: a word `w` selects the row iff `w & mask = pattern`. -/
structure OpcodeRow where
  name : String
  pattern : Word
  mask : Word
  deriving DecidableEq, Repr

/-- The nineteen rows of R47, in its order. -/
def opcodeRows : List OpcodeRow :=
  [⟨"BR", 0x0000, 0xF000⟩, ⟨"ADD register", 0x1000, 0xF020⟩, ⟨"ADD immediate", 0x1020, 0xF020⟩,
   ⟨"LD", 0x2000, 0xF000⟩, ⟨"ST", 0x3000, 0xF000⟩, ⟨"JSRR", 0x4000, 0xF800⟩,
   ⟨"JSR", 0x4800, 0xF800⟩, ⟨"AND register", 0x5000, 0xF020⟩,
   ⟨"AND immediate", 0x5020, 0xF020⟩, ⟨"LDR", 0x6000, 0xF000⟩] ++
  [⟨"STR", 0x7000, 0xF000⟩, ⟨"RTI", 0x8000, 0xF000⟩, ⟨"NOT", 0x9000, 0xF000⟩,
   ⟨"LDI", 0xA000, 0xF000⟩, ⟨"STI", 0xB000, 0xF000⟩, ⟨"JMP", 0xC000, 0xF000⟩,
   ⟨"RES", 0xD000, 0xF000⟩, ⟨"LEA", 0xE000, 0xF000⟩, ⟨"TRAP", 0xF000, 0xF000⟩]

/-- The row of R47's table that an instruction belongs to; the services are TRAP words. -/
def Instr.row : Instr → OpcodeRow
  | .br _ _ => ⟨"BR", 0x0000, 0xF000⟩
  | .addReg _ _ _ => ⟨"ADD register", 0x1000, 0xF020⟩
  | .addImm _ _ _ => ⟨"ADD immediate", 0x1020, 0xF020⟩
  | .ld _ _ => ⟨"LD", 0x2000, 0xF000⟩
  | .st _ _ => ⟨"ST", 0x3000, 0xF000⟩
  | .jsrr _ => ⟨"JSRR", 0x4000, 0xF800⟩
  | .jsr _ => ⟨"JSR", 0x4800, 0xF800⟩
  | .andReg _ _ _ => ⟨"AND register", 0x5000, 0xF020⟩
  | .andImm _ _ _ => ⟨"AND immediate", 0x5020, 0xF020⟩
  | .ldr _ _ _ => ⟨"LDR", 0x6000, 0xF000⟩
  | .str _ _ _ => ⟨"STR", 0x7000, 0xF000⟩
  | .rti => ⟨"RTI", 0x8000, 0xF000⟩
  | .not _ _ => ⟨"NOT", 0x9000, 0xF000⟩
  | .ldi _ _ => ⟨"LDI", 0xA000, 0xF000⟩
  | .sti _ _ => ⟨"STI", 0xB000, 0xF000⟩
  | .jmp _ => ⟨"JMP", 0xC000, 0xF000⟩
  | .res => ⟨"RES", 0xD000, 0xF000⟩
  | .lea _ _ => ⟨"LEA", 0xE000, 0xF000⟩
  | .getc | .out | .puts | .inp | .putsp | .halt | .trap _ => ⟨"TRAP", 0xF000, 0xF000⟩

/-- The bits R61 lists as ignored, as a mask over the instruction's word. -/
def Instr.ignoredBits : Instr → Word
  | .addReg _ _ _ | .andReg _ _ _ => 0x0018
  | .not _ _ => 0x003F
  | .jmp _ => 0x0E3F
  | .jsrr _ => 0x063F
  | .getc | .out | .puts | .inp | .putsp | .halt | .trap _ => 0x0F00
  | .rti | .res => 0x0FFF
  | .br _ _ | .addImm _ _ _ | .ld _ _ | .st _ _ | .jsr _ | .andImm _ _ _ | .ldr _ _ _
  | .str _ _ _ | .ldi _ _ | .sti _ _ | .lea _ _ => 0x0000

/-- What an assembler conventionally emits in the ignored bits (R61): 1s in NOT's, else 0. -/
def Instr.conventionalIgnored : Instr → Word
  | .not _ _ => 0x003F
  | .br _ _ | .addReg _ _ _ | .addImm _ _ _ | .ld _ _ | .st _ _ | .jsrr _ | .jsr _ | .andReg _ _ _
  | .andImm _ _ _ | .ldr _ _ _ | .str _ _ _ | .rti | .ldi _ _ | .sti _ _ | .jmp _ | .res | .lea _ _
  | .getc | .out | .puts | .inp | .putsp | .halt | .trap _ => 0x0000

/-! ## Every constructor's decoding, by a word written out from R47 to R57 (vectors W1 to W27 of
spec/95_test_vectors.md where they give one) -/

theorem decode_br : decode 0b0000111000000101 = .br 0b111 5 := by decide
theorem decode_addReg : decode 0b0001000000000001 = .addReg .r0 .r0 .r1 := by decide
theorem decode_addImm : decode 0b0001000001111101 = .addImm .r0 .r1 0b11101 := by decide
theorem decode_ld : decode 0b0010010000001010 = .ld .r2 10 := by decide
theorem decode_st : decode 0b0011011000001001 = .st .r3 9 := by decide
theorem decode_jsrr : decode 0b0100000010000000 = .jsrr .r2 := by decide
theorem decode_jsr : decode 0b0100100000000001 = .jsr 1 := by decide
theorem decode_andReg : decode 0b0101010011000100 = .andReg .r2 .r3 .r4 := by decide
theorem decode_andImm : decode 0b0101000000100000 = .andImm .r0 .r0 0 := by decide
theorem decode_ldr : decode 0b0110101001000001 = .ldr .r5 .r1 1 := by decide
theorem decode_str : decode 0b0111101001111111 = .str .r5 .r1 0b111111 := by decide
theorem decode_rti : decode 0b1000000000000000 = .rti := by decide
theorem decode_not : decode 0b1001011010111111 = .not .r3 .r2 := by decide
theorem decode_ldi : decode 0b1010001000000100 = .ldi .r1 4 := by decide
theorem decode_sti : decode 0b1011010000001001 = .sti .r2 9 := by decide
theorem decode_jmp : decode 0b1100000111000000 = .jmp .r7 := by decide
theorem decode_res : decode 0b1101000100100011 = .res := by decide
theorem decode_lea : decode 0b1110000000000100 = .lea .r0 4 := by decide
theorem decode_getc : decode 0b1111000000100000 = .getc := by decide
theorem decode_out : decode 0b1111000000100001 = .out := by decide
theorem decode_puts : decode 0b1111000000100010 = .puts := by decide
theorem decode_inp : decode 0b1111000000100011 = .inp := by decide
theorem decode_putsp : decode 0b1111000000100100 = .putsp := by decide
theorem decode_halt : decode 0b1111111100100101 = .halt := by decide
theorem decode_trap : decode 0b1111000011111111 = .trap 0xFF := by decide

end Sys2Proof
end

