-- ==== Sys2Proof/Machine/State.lean ====
section
/-! DEFINITION. The machine's state (spec/10_state.md R13 to R27), the reasons a step can stop, and
the state after reset. -/

namespace Sys2Proof.Machine

/-- Memory (R13): a list of byte cells in one canonical form. The word at address `a` is kept as the
cells `2 * a` (bits 15..8) and `2 * a + 1` (bits 7..0). DESIGN CHOICE, log 1, safe: no access of the
machine is narrower than a word, so the layout cannot be observed (R37). -/
abbrev Memory := List Host.Cell

/-- The general-purpose registers, R14. -/
structure Regs where
  r0 : Word
  r1 : Word
  r2 : Word
  r3 : Word
  r4 : Word
  r5 : Word
  r6 : Word
  r7 : Word
  deriving DecidableEq, Repr

/-- An event on the host's output port, R12 and R24. -/
inductive OutEvent where
  /-- `ConOut(b)`. -/
  | conOut (b : Byte)
  /-- `ConFlush()`. -/
  | conFlush
  deriving DecidableEq, Repr

/-- The complete state: the core's (R13 to R20, R23) and the host's two pieces (R24). The two device
registers are words of `mem` (R23). -/
structure State where
  /-- Memory, device words included (R13, R23). -/
  mem : Memory
  /-- `R0..R7` (R14). -/
  regs : Regs
  /-- The program counter, a word address (R16). -/
  pc : Word
  /-- The condition flags' 16-bit slot (R18). -/
  cond : Word
  /-- The RUNNING flag (R20). -/
  running : Bool
  /-- The host's pending keystrokes, next one first (R24 (a)). -/
  inQueue : List Byte
  /-- The output events issued so far, oldest first (R24 (b)). -/
  trace : List OutEvent
  deriving DecidableEq, Repr

/-- Why there is no next state. None of these is an exception of the hardware, which has none (R98);
each is a case for which the spec gives no successor (R11). -/
inductive Fault where
  /-- Raised by `step` when RUNNING is 0: the run has ended and no step exists (R20, R21, R113).
  Safe: nothing is claimed of a step that does not happen. Log 25. -/
  | halted
  /-- Raised by GETC and IN, and by TRAP with their vectors, on an empty input queue: the step is held
  until the host supplies a keystroke, and a model must not give it a successor on its own (R88, R91,
  R116, U14). Safe. Log 23. -/
  | awaitingInput
  /-- Raised by PUTS and PUTSP, and by TRAP with their vectors, when the scan never meets its
  terminator: a hang inside the step (R90, R92, R116, U7). Safe. Log 24. -/
  | unterminatedScan
  /-- Raised by `runEvents` on a host abort: the run ends without a final state (R100, U15). Safe.
  Log 26; after HALT too, which is the model's choice, log 34. -/
  | hostAborted
  deriving DecidableEq, Repr

/-- What the model declines to give a meaning to. -/
inductive Refusal where
  /-- Raised by an arm of `exec` for an instruction without a meaning; no arm does. Safe. -/
  | notModelled (mnemonic : String)
  /-- Raised by `loadImage` for an image that runs past address 0xFFFF: undefined in the document,
  no launch state (R111 (b), U1). Safe. Log 27. -/
  | imageOverflow
  /-- Raised by `loadImage` for an image that cannot be read: execution never starts (R111 (a), U16).
  Safe. Log 27. -/
  | imageUnreadable
  deriving DecidableEq, Repr

/-- Eight registers holding one value. -/
def Regs.all (v : Word) : Regs := ⟨v, v, v, v, v, v, v, v⟩

/-- The state after reset for given values of what the spec leaves open: `GPR_RESET`, `COND_RESET`,
`MEM_RESET` and the host's queue (R27). A claim that must hold for every launch quantifies over
these. -/
def State.resetWith (mem : Memory) (regs : Regs) (cond : Word) (inQueue : List Byte) : State where
  mem := mem
  regs := regs
  pc := Config.pcStart
  cond := cond
  running := true
  inQueue := inQueue
  trace := []

/-- The machine right after reset, R27: `PC_START`, RUNNING 1, an empty trace; the open rows at the
spec's simulator defaults (DESIGN CHOICE, log 2, 3, 4 and 22, unsafe). -/
def State.reset : State :=
  State.resetWith [] (Regs.all Config.gprReset) Config.condReset []

end Sys2Proof.Machine
end

