-- ==== Sys2Proof/Machine/Ops.lean ====
section
/-! DEFINITION. The named operations over memory, registers and the host's ports: the primitives of
spec/00_scope.md R10 and R12, spec/20_memory.md R31 to R34, and the fetch of spec/10_state.md R21.
The hardware takes no exception and returns from none (R98, R103), so no operation here does. -/

namespace Sys2Proof.Machine

/-! ## Memory as cells -/

/-- The cell that holds bits 15..8 of the word at `a` (log 1). -/
def hiCell (a : Word) : Nat := 2 * a.toNat

/-- The cell that holds bits 7..0 of the word at `a` (log 1). -/
def loCell (a : Word) : Nat := 2 * a.toNat + 1

/-- One byte of memory; an unlisted one reads as `Config.memUnlisted`. -/
def Memory.readByte : Memory → Nat → Byte
  | [], _ => Config.memUnlisted
  | c :: rest, k => if c.1 = k then c.2 else Memory.readByte rest k

/-- The memory without the cell `k`. -/
def Memory.eraseByte : Memory → Nat → Memory
  | [], _ => []
  | c :: rest, k => if c.1 = k then Memory.eraseByte rest k else c :: Memory.eraseByte rest k

/-- The memory with the cell `k` put in its place in the order. -/
def Memory.insertByte : Memory → Nat → Byte → Memory
  | [], k, v => [(k, v)]
  | c :: rest, k, v =>
    if k < c.1 then (k, v) :: c :: rest else c :: Memory.insertByte rest k v

/-- Write one byte, keeping the canonical form: a byte equal to what an unlisted one reads as is not
listed. -/
def Memory.writeByte (m : Memory) (k : Nat) (v : Byte) : Memory :=
  if v = Config.memUnlisted then m.eraseByte k else (m.eraseByte k).insertByte k v

/-- Every cell from `lo` on in rising order, none past the last word's, none listed for nothing. -/
def Memory.wfFrom : Nat → Memory → Bool
  | _, [] => true
  | lo, c :: rest =>
    decide (lo ≤ c.1) && decide (c.1 < 2 * Config.memWords) && decide (c.2 ≠ Config.memUnlisted) &&
      Memory.wfFrom (c.1 + 1) rest

/-- The canonical form: addresses strictly rising, every cell inside the 65536 words (R13, R28), no
entry equal to what an unlisted address reads as. -/
def Memory.wf (m : Memory) : Bool := Memory.wfFrom 0 m

/-- The word at `a`: the one place where two cells become a word. -/
def Memory.readWord (m : Memory) (a : Word) : Word :=
  wordOfBytes (m.readByte (hiCell a)) (m.readByte (loCell a))

/-- Store a word at `a`. -/
def Memory.writeWord (m : Memory) (a v : Word) : Memory :=
  (m.writeByte (hiCell a) (highByte v)).writeByte (loCell a) (lowByte v)

/-! ## Registers, R10 and R14 -/

/-- Read a register of the file. -/
def Regs.get (g : Regs) : Reg → Word
  | .r0 => g.r0 | .r1 => g.r1 | .r2 => g.r2 | .r3 => g.r3
  | .r4 => g.r4 | .r5 => g.r5 | .r6 => g.r6 | .r7 => g.r7

/-- Write a register of the file; none is hard-wired (R14). -/
def Regs.set (g : Regs) (r : Reg) (v : Word) : Regs :=
  match r with
  | .r0 => { g with r0 := v } | .r1 => { g with r1 := v }
  | .r2 => { g with r2 := v } | .r3 => { g with r3 := v }
  | .r4 => { g with r4 := v } | .r5 => { g with r5 := v }
  | .r6 => { g with r6 := v } | .r7 => { g with r7 := v }

/-- `x[i]`. -/
def State.getReg (s : State) (r : Reg) : Word := s.regs.get r

/-- `x[i] <- v`. -/
def State.setReg (s : State) (r : Reg) (v : Word) : State := { s with regs := s.regs.set r v }

/-- `pc <- t`. -/
def State.setPc (s : State) (t : Word) : State := { s with pc := t }

/-- `cond <- c`. -/
def State.setCond (s : State) (c : Word) : State := { s with cond := c }

/-- `running <- b`. -/
def State.setRunning (s : State) (b : Bool) : State := { s with running := b }

/-- The state with another memory. -/
def State.setMem (s : State) (m : Memory) : State := { s with mem := m }

/-- The state with another input queue. -/
def State.setInQueue (s : State) (q : List Byte) : State := { s with inQueue := q }

/-- The state with events appended to the output trace. -/
def State.emit (s : State) (evs : List OutEvent) : State := { s with trace := s.trace ++ evs }

/-! ## Host ports, R12 and R24 -/

/-- `KeyPoll()`: is a keystroke pending now. -/
def keyPoll (s : State) : Bool := !s.inQueue.isEmpty

/-- `KeyRead()`: the head of the queue, removed from it; none while the queue is empty (the hold of
R24). -/
def keyRead (s : State) : Option (Byte × State) :=
  match s.inQueue with
  | [] => none
  | c :: rest => some (c, s.setInQueue rest)

/-- `ConOut(b)`. -/
def conOut (s : State) (b : Byte) : State := s.emit [.conOut b]

/-- `ConOut` of each byte of a list, in order. -/
def conOutAll (s : State) (bs : List Byte) : State := s.emit (bs.map .conOut)

/-- `ConFlush()`: an event the core cannot observe (R24). -/
def conFlush (s : State) : State := s.emit [.conFlush]

/-- `KeyReadEcho()`: `KeyRead()` that also appends the echo `ConOut(c)` (R24; D18, log 22). -/
def keyReadEcho (s : State) : Option (Byte × State) :=
  match keyRead s with
  | none => none
  | some (c, s') => some (c, conOut s' c)

/-! ## The memory primitives -/

/-- `MemPeek(a)`: the stored word, no side effect (R33). -/
def memPeek (s : State) (a : Word) : Word := s.mem.readWord a

/-- `MemWrite(a, v)`: a direct store, at every address (R32, R36). -/
def memWrite (s : State) (a v : Word) : State := s.setMem (s.mem.writeWord a v)

/-- `KeyboardPollAndLatch()` (R34): a pending keystroke is consumed and latched, and the status word
says whether there was one. Whole-word assignment is D8 (log 12), consumption by `KeyRead` is D9
(log 13). -/
def keyboardPollAndLatch (s : State) : State :=
  match keyRead s with
  | some (c, s') =>
    memWrite (memWrite s' Config.kbsrAddr Config.kbsrReady) Config.kbdrAddr (zextByte c)
  | none => memWrite s Config.kbsrAddr Config.kbsrIdle

/-- `MemRead(a)` (R31): the word read and the state after, which differs from the one before only
when `a` is the keyboard status address. -/
def memRead (s : State) (a : Word) : Word × State :=
  if a = Config.kbsrAddr then
    (memPeek (keyboardPollAndLatch s) a, keyboardPollAndLatch s)
  else (memPeek s a, s)

/-- The fetch of R21: the word at PC, read through the shim, and the state with PC advanced by 1
modulo 65536. -/
def fetch (s : State) : Word × State :=
  ((memRead s s.pc).1, (memRead s s.pc).2.setPc (s.pc + 1))

end Sys2Proof.Machine
end

