-- ==== Sys2Proof/Machine/Flags.lean ====
section
/-! DEFINITION. The condition flags (spec/10_state.md R18, R19): the one flag computation of the
machine. There is no carry and no overflow flag (R19, R71). -/

namespace Sys2Proof.Machine

/-- The code of a 16-bit value: ZERO, NEGATIVE if bit 15 is set, else POSITIVE (R19). -/
def classify (v : Word) : Word :=
  if v = 0 then Config.flZro else if v.getLsbD 15 then Config.flNeg else Config.flPos

/-- `setcc(i)`: classify a register's value into COND (R19). -/
def setcc (s : State) (r : Reg) : State := s.setCond (classify (s.getReg r))

/-- Write a destination register and set the flags from it, as the seven flag-updating instructions
do (R22). -/
def writeDest (s : State) (dr : Reg) (v : Word) : State := setcc (s.setReg dr v) dr

end Sys2Proof.Machine
end

