-- ==== Sys2Proof/Machine/Operands.lean ====
section
/-! DEFINITION. Every operand form: sign extension (spec/00_scope.md R8), immediates and offsets
(spec/30_encoding.md R59) and the four addressing modes (spec/42_load_store.md R85). -/

namespace Sys2Proof.Machine

/-- `sext_n` (R8): the vacated high bits are copies of the field's sign bit. -/
def sext {n : Nat} (f : BitVec n) : Word :=
  if f.msb then f.setWidth 16 + BitVec.ofNat 16 (65536 - 2 ^ n) else f.setWidth 16

/-- `zext_16(instr[11:9])`, BR's mask as a word (R73). -/
def maskWord (nzp : BitVec 3) : Word := nzp.setWidth 16

/-- PC-relative address, `pc + sext_n(off)` with the incremented PC (R85, R16). -/
def pcRel {n : Nat} (s : State) (off : BitVec n) : Word := s.pc + sext off

/-- Base-plus-offset address, `x[baser] + sext_6(off)` (R85). -/
def baseOff (s : State) (base : Reg) (off : BitVec 6) : Word := s.getReg base + sext off

/-- Indirect address (R85): the pointer word at the PC-relative address, read through the shim, and
the state after that read. -/
def indirect (s : State) (off : BitVec 9) : Word × State := memRead s (pcRel s off)

end Sys2Proof.Machine
end

