-- ==== Sys2Proof/Machine/Alu.lean ====
section
/-! DEFINITION. ADD, AND and NOT (spec/40_alu.md R66 to R72). In every meaning the state's `pc` is the
incremented PC (R21). -/

namespace Sys2Proof.Machine

/-- ADD, register form, R66. -/
def execAddReg (dr sr1 sr2 : Reg) (s : State) : Host.Outcome State Fault Refusal :=
  .next (writeDest s dr (s.getReg sr1 + s.getReg sr2))

/-- ADD, immediate form, R67. -/
def execAddImm (dr sr1 : Reg) (imm : BitVec 5) (s : State) : Host.Outcome State Fault Refusal :=
  .next (writeDest s dr (s.getReg sr1 + sext imm))

/-- AND, register form, R68. -/
def execAndReg (dr sr1 sr2 : Reg) (s : State) : Host.Outcome State Fault Refusal :=
  .next (writeDest s dr (s.getReg sr1 &&& s.getReg sr2))

/-- AND, immediate form, R69: the immediate is sign-extended before the AND. -/
def execAndImm (dr sr1 : Reg) (imm : BitVec 5) (s : State) : Host.Outcome State Fault Refusal :=
  .next (writeDest s dr (s.getReg sr1 &&& sext imm))

/-- NOT, R70. -/
def execNot (dr sr : Reg) (s : State) : Host.Outcome State Fault Refusal :=
  .next (writeDest s dr (~~~(s.getReg sr)))

end Sys2Proof.Machine
end

