-- ==== Sys2Proof/Machine/Control.lean ====
section
/-! DEFINITION. BR, JMP, JSR and JSRR (spec/41_control.md R73 to R77). None has a delay slot, none
writes COND (R77, R22). -/

namespace Sys2Proof.Machine

/-- BR, R73: "Bitwise AND, not logical AND" (C2, D11; log 15). -/
def execBr (nzp : BitVec 3) (off : BitVec 9) (s : State) : Host.Outcome State Fault Refusal :=
  if s.cond &&& maskWord nzp ≠ 0 then .next (s.setPc (pcRel s off)) else .next s

/-- JMP, R74; RET when the base is R7. -/
def execJmp (base : Reg) (s : State) : Host.Outcome State Fault Refusal :=
  .next (s.setPc (s.getReg base))

/-- JSR, R75: both the link and the target use the same incremented PC. -/
def execJsr (off : BitVec 11) (s : State) : Host.Outcome State Fault Refusal :=
  .next ((s.setReg .r7 s.pc).setPc (pcRel s off))

/-- JSRR, R76: R7 is written first, and the base is read after that write (D12, log 16). -/
def execJsrr (base : Reg) (s : State) : Host.Outcome State Fault Refusal :=
  .next ((s.setReg .r7 s.pc).setPc ((s.setReg .r7 s.pc).getReg base))

end Sys2Proof.Machine
end

