-- ==== Sys2Proof/Machine/LoadStore.lean ====
section
/-! DEFINITION. LD, LDI, LDR, LEA, ST, STI and STR (spec/42_load_store.md R78 to R85). Loads go
through the keyboard shim, stores are direct (R29). -/

namespace Sys2Proof.Machine

/-- A load from an address into a register: `MemRead`, the register write and `setcc`. -/
def loadFrom (s : State) (dr : Reg) (ea : Word) : State :=
  writeDest (memRead s ea).2 dr (memRead s ea).1

/-- LD, R78. -/
def execLd (dr : Reg) (off : BitVec 9) (s : State) : Host.Outcome State Fault Refusal :=
  .next (loadFrom s dr (pcRel s off))

/-- LDI, R79: the pointer's read, then the read through it. -/
def execLdi (dr : Reg) (off : BitVec 9) (s : State) : Host.Outcome State Fault Refusal :=
  .next (loadFrom (indirect s off).2 dr (indirect s off).1)

/-- LDR, R80. -/
def execLdr (dr base : Reg) (off : BitVec 6) (s : State) : Host.Outcome State Fault Refusal :=
  .next (loadFrom s dr (baseOff s base off))

/-- LEA, R81: no memory access; the flags are set from the address. -/
def execLea (dr : Reg) (off : BitVec 9) (s : State) : Host.Outcome State Fault Refusal :=
  .next (writeDest s dr (pcRel s off))

/-- ST, R82. -/
def execSt (sr : Reg) (off : BitVec 9) (s : State) : Host.Outcome State Fault Refusal :=
  .next (memWrite s (pcRel s off) (s.getReg sr))

/-- STI, R83: the pointer is read through the shim, the store is direct. -/
def execSti (sr : Reg) (off : BitVec 9) (s : State) : Host.Outcome State Fault Refusal :=
  .next (memWrite (indirect s off).2 (indirect s off).1 ((indirect s off).2.getReg sr))

/-- STR, R84. -/
def execStr (sr base : Reg) (off : BitVec 6) (s : State) : Host.Outcome State Fault Refusal :=
  .next (memWrite s (baseOff s base off) (s.getReg sr))

end Sys2Proof.Machine
end

