-- ==== Sys2Proof/Machine/Trap.lean ====
section
/-! DEFINITION. TRAP, the six hard-wired services and the two reserved opcodes (spec/43_trap_system.md
R86 to R97). No service writes memory, COND, PC or R7; a whole service is one step (R21, R86). -/

namespace Sys2Proof.Machine

/-! ## The services -/

/-- GETC, R88: hold on an empty queue; R0 gets the zero-extended code, COND is left alone (D14,
log 18). -/
def serviceGetc (s : State) : Host.Outcome State Fault Refusal :=
  match keyRead s with
  | none => .fault .awaitingInput
  | some (c, s') => .next (s'.setReg .r0 (zextByte c))

/-- OUT, R89: the low byte of R0, then a flush (D15, log 19). -/
def serviceOut (s : State) : Host.Outcome State Fault Refusal :=
  .next (conFlush (conOut s (lowByte (s.getReg .r0))))

/-- The bytes PUTS writes from address `a` on, R90: the low byte of each word up to the first zero
word; none if there is none within `fuel` words. -/
def scanPuts (m : Memory) : Nat → Word → Option (List Byte)
  | 0, _ => none
  | fuel + 1, a =>
    if m.readWord a = 0 then some []
    else (scanPuts m fuel (a + 1)).map (lowByte (m.readWord a) :: ·)

/-- The bytes PUTSP writes from address `a` on, R92: low byte then high byte of each word up to the
first zero byte (D16, log 20); none if there is none within `fuel` words. -/
def scanPutsp (m : Memory) : Nat → Word → Option (List Byte)
  | 0, _ => none
  | fuel + 1, a =>
    if lowByte (m.readWord a) = 0 then some []
    else if highByte (m.readWord a) = 0 then some [lowByte (m.readWord a)]
    else (scanPutsp m fuel (a + 1)).map
      (lowByte (m.readWord a) :: highByte (m.readWord a) :: ·)

/-- What PUTS and PUTSP do with the scanned bytes: write them and flush, or hang when the scan of the
whole memory met no terminator (R116, D22, log 24). -/
def writeScanned (s : State) : Option (List Byte) → Host.Outcome State Fault Refusal
  | some bs => .next (conFlush (conOutAll s bs))
  | none => .fault .unterminatedScan

/-- PUTS, R90. The scan reads with `MemPeek`, so it never polls (D13, log 17); it wraps, and
`memWords` words are all there are. -/
def servicePuts (s : State) : Host.Outcome State Fault Refusal :=
  writeScanned s (scanPuts s.mem Config.memWords (s.getReg .r0))

/-- IN, R91: the prompt, then one keystroke with its echo, no flush (D17, log 21); hold on an empty
queue; COND is left alone (D14, log 18). -/
def serviceIn (s : State) : Host.Outcome State Fault Refusal :=
  match keyReadEcho (conOutAll s Config.inPrompt) with
  | none => .fault .awaitingInput
  | some (c, s') => .next (s'.setReg .r0 (zextByte c))

/-- PUTSP, R92, with the same reads and the same hang as PUTS. -/
def servicePutsp (s : State) : Host.Outcome State Fault Refusal :=
  writeScanned s (scanPutsp s.mem Config.memWords (s.getReg .r0))

/-- HALT, R93: RUNNING becomes 0 and nothing else changes (D25). -/
def serviceHalt (s : State) : Host.Outcome State Fault Refusal :=
  .next (s.setRunning false)

/-- The dispatcher, R86: the vector is compared with six constants (R87); any other vector does
nothing (R94). -/
def trapDispatch (v : Byte) (s : State) : Host.Outcome State Fault Refusal :=
  if v = Config.trapGetc then serviceGetc s
  else if v = Config.trapOut then serviceOut s
  else if v = Config.trapPuts then servicePuts s
  else if v = Config.trapIn then serviceIn s
  else if v = Config.trapPutsp then servicePutsp s
  else if v = Config.trapHalt then serviceHalt s
  else .next s

/-! ## The meanings -/

/-- GETC, R88. -/
def execGetc (s : State) : Host.Outcome State Fault Refusal := serviceGetc s

/-- OUT, R89. -/
def execOut (s : State) : Host.Outcome State Fault Refusal := serviceOut s

/-- PUTS, R90. -/
def execPuts (s : State) : Host.Outcome State Fault Refusal := servicePuts s

/-- IN, R91. -/
def execIn (s : State) : Host.Outcome State Fault Refusal := serviceIn s

/-- PUTSP, R92. -/
def execPutsp (s : State) : Host.Outcome State Fault Refusal := servicePutsp s

/-- HALT, R93. -/
def execHalt (s : State) : Host.Outcome State Fault Refusal := serviceHalt s

/-- TRAP, R86: the whole dispatcher. The decoder gives this constructor only the vectors without a
service (log 31), for which it does nothing (R94). -/
def execTrap (vec : Byte) (s : State) : Host.Outcome State Fault Refusal := trapDispatch vec s

/-- RTI, R95: nothing; the fetch has advanced PC (C6, log 30). -/
def execRti (s : State) : Host.Outcome State Fault Refusal := .next s

/-- RES, R96: nothing; the fetch has advanced PC (C6, log 30). -/
def execRes (s : State) : Host.Outcome State Fault Refusal := .next s

end Sys2Proof.Machine
end

