-- ==== Sys2Proof/Machine/Step.lean ====
section
/-! DEFINITION. The instruction cycle (spec/10_state.md R21) and the placing of a word where the next
fetch finds it. -/

namespace Sys2Proof.Machine

/-- One step, enabled iff RUNNING is 1 (R21): fetch, PC increment, decode, execute. With RUNNING 0 no
step exists (R20, R113; log 25). -/
def step (s : State) : Host.Outcome State Fault Refusal :=
  if s.running then exec (decode (fetch s).1) (fetch s).2 else .fault .halted

/-- The state with the instruction of bits `w` placed where the next step fetches it (log 28): it is
stored at PC as an image load would store it, RUNNING is 1, and a PC at the keyboard status address,
whose stored word no fetch returns (R34), is moved to `PC_START`. From `State.reset` only the memory
word at PC changes. -/
def State.withFetchWord (s : State) (nbits w : Nat) : State :=
  let at' := if s.pc = Config.kbsrAddr then Config.pcStart else s.pc
  ((memWrite s at' (BitVec.ofNat 16 (w % 2 ^ nbits))).setPc at').setRunning true

end Sys2Proof.Machine
end

