-- ==== Sys2Proof/Machine/Boot.lean ====
section
/-! DEFINITION. Program images and the start of a run (spec/70_reset_and_hazards.md R107 to R111): the
host's part before the first fetch. -/

namespace Sys2Proof.Machine

/-- A program image as the host finds it (R108, R111 (a)). -/
inductive ImageFile where
  /-- It cannot be opened or read. -/
  | unreadable
  /-- Its bytes, in file order. -/
  | bytes (bs : List Byte)
  deriving DecidableEq, Repr

/-- The complete big-endian words of a byte list (R37, R108); a trailing odd byte is ignored (R111 (c),
D20, log 27). -/
def wordsOfBytes : List Byte → List Word
  | hi :: lo :: rest => wordOfBytes hi lo :: wordsOfBytes rest
  | _ => []

/-- Direct stores of words at consecutive addresses (R109). -/
def loadWords (m : Memory) (a : Word) : List Word → Memory
  | [] => m
  | w :: ws => loadWords (m.writeWord a w) (a + 1) ws

/-- Load one image (R108, R109). Fewer than two bytes load nothing (R111 (c)); words that would pass
address 0xFFFF are refused (R111 (b), U1); an unreadable image is refused (R111 (a), U16). -/
def loadImage (f : ImageFile) (s : State) : Host.Outcome State Fault Refusal :=
  match f with
  | .unreadable => .refused .imageUnreadable
  | .bytes (b0 :: b1 :: rest) =>
    if (wordOfBytes b0 b1).toNat + (wordsOfBytes rest).length ≤ Config.memWords then
      .next (s.setMem (loadWords s.mem (wordOfBytes b0 b1) (wordsOfBytes rest)))
    else .refused .imageOverflow
  | .bytes _ => .next s

/-- Load several images, in the order given (R110). -/
def loadImages : List ImageFile → State → Host.Outcome State Fault Refusal
  | [], s => .next s
  | f :: fs, s =>
    match loadImage f s with
    | .next s' => loadImages fs s'
    | .fault r => .fault r
    | .refused r => .refused r

/-- The start-up sequence from a reset state (R107): the images, PC at `PC_START`, RUNNING 1. -/
def launchFrom (s : State) (fs : List ImageFile) : Host.Outcome State Fault Refusal :=
  match loadImages fs s with
  | .next s' => .next ((s'.setPc Config.pcStart).setRunning true)
  | .fault r => .fault r
  | .refused r => .refused r

/-- The start-up sequence from `State.reset`. -/
def launch (fs : List ImageFile) : Host.Outcome State Fault Refusal := launchFrom State.reset fs

end Sys2Proof.Machine
end

