-- ==== Sys2Proof/Machine/Assembler.lean ====
section
/-! DEFINITION. The assembly conventions of spec/30_encoding.md R64 and R65 and the image of an
assembled text (R108). The document defines no assembler: these conventions are the spec's general
knowledge (PRESUMED, D24, log 33, safe: no step of the machine uses them). -/

namespace Sys2Proof.Machine

/-- One line of source. A label stands for its address (R64). -/
inductive AsmLine where
  /-- An instruction with its fields as given: every row of R64 that takes no label. -/
  | instr (i : Instr)
  /-- `BRn`, `BRz`, ..., `BRnzp LABEL`: the letters present. -/
  | br (n z p : Bool) (label : Word)
  /-- `BR LABEL`, the same as `BRnzp`. -/
  | brAlways (label : Word)
  /-- `JSR LABEL`. -/
  | jsr (label : Word)
  /-- `LD DR, LABEL`. -/
  | ld (dr : Reg) (label : Word)
  /-- `LDI DR, LABEL`. -/
  | ldi (dr : Reg) (label : Word)
  /-- `LEA DR, LABEL`. -/
  | lea (dr : Reg) (label : Word)
  /-- `ST SR, LABEL`. -/
  | st (sr : Reg) (label : Word)
  /-- `STI SR, LABEL`. -/
  | sti (sr : Reg) (label : Word)
  /-- `TRAP xHH`. -/
  | trap (vec : Byte)
  /-- `RET`, R65. -/
  | ret
  /-- `NOP`, R65. -/
  | nop
  /-- `.FILL v`, R65. -/
  | fill (v : Word)
  /-- `.BLKW n`, R65. -/
  | blkw (n : Nat)
  /-- `.STRINGZ "s"`, the character codes of `s`, R65. -/
  | stringz (cs : List Byte)
  deriving DecidableEq, Repr

/-- `RET` is `JMP R7` (R65, R74). -/
def retInstr : Instr := .jmp .r7

/-- `NOP` is a BR with an empty mask (R65, R62). -/
def nopInstr : Instr := .br 0 0

/-- The offset of a label from an instruction at `addr`: `LABEL - (addr + 1)`, if it fits the field
(R64). -/
def labelOffset (n : Nat) (addr label : Word) : Option (BitVec n) :=
  let d := label - (addr + 1)
  if sext (d.setWidth n) = d then some (d.setWidth n) else none

/-- The condition mask of the letters present (R52, R64). -/
def nzpMask (n z p : Bool) : BitVec 3 := BitVec.ofBool n ++ BitVec.ofBool z ++ BitVec.ofBool p

/-- The words of one line placed at `addr`; none if a label is out of reach. -/
def AsmLine.words (addr : Word) : AsmLine → Option (List Word)
  | .instr i => some [encode i]
  | .br n z p label => (labelOffset 9 addr label).map fun off => [encode (.br (nzpMask n z p) off)]
  | .brAlways label => (labelOffset 9 addr label).map fun off => [encode (.br 7 off)]
  | .jsr label => (labelOffset 11 addr label).map fun off => [encode (.jsr off)]
  | .ld dr label => (labelOffset 9 addr label).map fun off => [encode (.ld dr off)]
  | .ldi dr label => (labelOffset 9 addr label).map fun off => [encode (.ldi dr off)]
  | .lea dr label => (labelOffset 9 addr label).map fun off => [encode (.lea dr off)]
  | .st sr label => (labelOffset 9 addr label).map fun off => [encode (.st sr off)]
  | .sti sr label => (labelOffset 9 addr label).map fun off => [encode (.sti sr off)]
  | .trap vec => some [encode (.trap vec)]
  | .ret => some [encode retInstr]
  | .nop => some [encode nopInstr]
  | .fill v => some [v]
  | .blkw n => some (List.replicate n 0)
  | .stringz cs => some (cs.map zextByte ++ [0])

/-- The words of consecutive lines from `addr` on. -/
def assembleFrom (addr : Word) : List AsmLine → Option (List Word)
  | [] => some []
  | l :: ls =>
    match l.words addr with
    | none => none
    | some ws => (assembleFrom (addr + BitVec.ofNat 16 ws.length) ls).map (ws ++ ·)

/-- A word's two bytes in image order, high first (R108). -/
def imageBytes (w : Word) : List Byte := [highByte w, lowByte w]

/-- The image of a text that begins with `.ORIG origin` and ends with `.END` (R65, R108). -/
def assemble (origin : Word) (ls : List AsmLine) : Option (List Byte) :=
  (assembleFrom origin ls).map fun ws => imageBytes origin ++ ws.flatMap imageBytes

end Sys2Proof.Machine
end

