-- ==== Sys2Proof/Machine/Run.lean ====
section
/-! DEFINITION. A run with its host: the host's actions land between steps (spec/10_state.md R24,
spec/60_exceptions.md R100, R101, D26). -/

namespace Sys2Proof.Machine

/-- The host appends a keystroke to the input queue (R24 (a)); nothing else changes (R99). With RUNNING 0
this is the model's choice (log 34). -/
def hostKey (c : Byte) (s : State) : State := s.setInQueue (s.inQueue ++ [c])

/-- What can happen at an instruction boundary. -/
inductive RunEvent where
  /-- The core executes one instruction. -/
  | cpu
  /-- A keystroke arrives; when is the host's choice (R119, D23). -/
  | key (c : Byte)
  /-- The host aborts the run (R100). -/
  | abort
  deriving DecidableEq, Repr

/-- One event. An abort leaves no final state (R100, D21; log 26). DESIGN CHOICE, log 34, unsafe: RUNNING
is not tested here. The spec speaks of host events only while RUNNING is 1 (R20, R100, R113); with
RUNNING 0, where the run has ended, a key event still appends to the queue and an abort event still
answers `hostAborted`. -/
def applyEvent (e : RunEvent) (s : State) : Host.Outcome State Fault Refusal :=
  match e with
  | .cpu => step s
  | .key c => .next (hostKey c s)
  | .abort => .fault .hostAborted

/-- A run as the list of its events, up to the first that has no next state. -/
def runEvents : List RunEvent → State → Host.Outcome State Fault Refusal
  | [], s => .next s
  | e :: es, s =>
    match applyEvent e s with
    | .next s' => runEvents es s'
    | .fault r => .fault r
    | .refused r => .refused r

end Sys2Proof.Machine
end

