-- ==== Sys2Proof/Safety.lean ====
section
/-! DEFINITION. The invariant of the machine and the vocabulary that claims use: what is the same in
two states, what a value's flags are, and which parts of the state an instruction may touch. -/

namespace Sys2Proof.Machine

/-! ## The invariant -/

/-- The COND words a run can hold: one of the three codes (R18), or the all-zero word that
`COND_RESET` may be (R27, C7). -/
abbrev CondLegal (c : Word) : Prop :=
  c = Config.flPos ∨ c = Config.flZro ∨ c = Config.flNeg ∨ c = 0

/-- Memory is canonical and COND is legal. -/
abbrev State.Inv (s : State) : Prop := s.mem.wf = true ∧ CondLegal s.cond

/-! ## What is the same in two states -/

/-- Every register reads the same. -/
def RegsSame (s t : State) : Prop := ∀ r, t.getReg r = s.getReg r

/-- Every register but one reads the same. -/
def RegsSameBut (dr : Reg) (s t : State) : Prop := ∀ r, r ≠ dr → t.getReg r = s.getReg r

/-- Every byte of memory reads the same. -/
def MemSame (s t : State) : Prop := ∀ k, t.mem.readByte k = s.mem.readByte k

/-- Every byte of memory outside the words at the listed addresses reads the same. -/
def MemSameBut (as : List Word) (s t : State) : Prop :=
  ∀ k, (∀ a ∈ as, k ≠ hiCell a ∧ k ≠ loCell a) → t.mem.readByte k = s.mem.readByte k

/-- The input queue and the output trace are the same. -/
def HostSame (s t : State) : Prop := t.inQueue = s.inQueue ∧ t.trace = s.trace

/-- Nothing differs but a destination register and COND. -/
def OnlyDestAndCond (dr : Reg) (s t : State) : Prop :=
  RegsSameBut dr s t ∧ t.pc = s.pc ∧ MemSame s t ∧ t.running = s.running ∧ HostSame s t

/-- Nothing differs but PC. -/
def OnlyPc (s t : State) : Prop :=
  RegsSame s t ∧ t.cond = s.cond ∧ MemSame s t ∧ t.running = s.running ∧ HostSame s t

/-- Nothing differs but one register and PC. -/
def OnlyRegAndPc (dr : Reg) (s t : State) : Prop :=
  RegsSameBut dr s t ∧ t.cond = s.cond ∧ MemSame s t ∧ t.running = s.running ∧ HostSame s t

/-- Nothing differs but the word of memory at one address. -/
def OnlyWord (a : Word) (s t : State) : Prop :=
  MemSameBut [a] s t ∧ RegsSame s t ∧ t.pc = s.pc ∧ t.cond = s.cond ∧ t.running = s.running ∧
    HostSame s t

/-- Nothing differs but the output trace. -/
def OnlyTrace (s t : State) : Prop :=
  RegsSame s t ∧ t.pc = s.pc ∧ t.cond = s.cond ∧ MemSame s t ∧ t.running = s.running ∧
    t.inQueue = s.inQueue

/-- Nothing of the core differs but R0, and nothing of the host is said. -/
def OnlyR0 (s t : State) : Prop :=
  RegsSameBut .r0 s t ∧ t.pc = s.pc ∧ t.cond = s.cond ∧ MemSame s t ∧ t.running = s.running

/-! ## Values -/

/-- COND is the one code that agrees with the signed value (R19). -/
def FlagsOf (v c : Word) : Prop :=
  (v = 0 → c = Config.flZro) ∧ (v.toInt < 0 → c = Config.flNeg) ∧
    (0 < v.toInt → c = Config.flPos)

/-- `t` is `s` after a load of `dr` from `ea`: the register and COND hold the word that `MemRead(ea)`
answers, memory and the queue are as that read leaves them, nothing else differs. -/
def LoadedFrom (s : State) (dr : Reg) (ea : Word) (t : State) : Prop :=
  t.getReg dr = (memRead s ea).1 ∧ FlagsOf (t.getReg dr) t.cond ∧
    OnlyDestAndCond dr (memRead s ea).2 t

/-! ## What an instruction may touch -/

/-- The destination of the seven flag-updating instructions (R22). -/
def flagDest : Instr → Option Reg
  | .addReg dr _ _ | .addImm dr _ _ | .andReg dr _ _ | .andImm dr _ _ | .not dr _ | .ld dr _
  | .ldi dr _ | .ldr dr _ _ | .lea dr _ => some dr
  | .br _ _ | .st _ _ | .jsrr _ | .jsr _ | .str _ _ _ | .rti | .sti _ _ | .jmp _ | .res | .getc
  | .out | .puts | .inp | .putsp | .halt | .trap _ => none

/-- The one register an instruction writes, if any (R15). -/
def writtenReg : Instr → Option Reg
  | .addReg dr _ _ | .addImm dr _ _ | .andReg dr _ _ | .andImm dr _ _ | .not dr _ | .ld dr _
  | .ldi dr _ | .ldr dr _ _ | .lea dr _ => some dr
  | .jsr _ | .jsrr _ => some .r7
  | .getc | .inp => some .r0
  | .br _ _ | .st _ _ | .str _ _ _ | .rti | .sti _ _ | .jmp _ | .res | .out | .puts | .putsp
  | .halt | .trap _ => none

/-- BR, JMP, JSR and JSRR: the instructions whose body writes PC (R16). -/
def isTransfer : Instr → Bool
  | .br _ _ | .jmp _ | .jsr _ | .jsrr _ => true
  | .addReg _ _ _ | .addImm _ _ _ | .ld _ _ | .st _ _ | .andReg _ _ _ | .andImm _ _ _ | .ldr _ _ _
  | .str _ _ _ | .rti | .not _ _ | .ldi _ _ | .sti _ _ | .res | .lea _ _ | .getc | .out | .puts
  | .inp | .putsp | .halt | .trap _ => false

/-- The addresses an instruction's body reads with `MemRead`, in order (R29). -/
def readAddrs (s : State) : Instr → List Word
  | .ld _ off => [pcRel s off]
  | .ldr _ base off => [baseOff s base off]
  | .ldi _ off => [pcRel s off, (indirect s off).1]
  | .sti _ off => [pcRel s off]
  | .br _ _ | .addReg _ _ _ | .addImm _ _ _ | .st _ _ | .jsrr _ | .jsr _ | .andReg _ _ _
  | .andImm _ _ _ | .str _ _ _ | .rti | .not _ _ | .jmp _ | .res | .lea _ _ | .getc | .out | .puts
  | .inp | .putsp | .halt | .trap _ => []

/-- The address an instruction's body stores to with `MemWrite`, if any (R29). -/
def storeAddr (s : State) : Instr → Option Word
  | .st _ off => some (pcRel s off)
  | .str _ base off => some (baseOff s base off)
  | .sti _ off => some (indirect s off).1
  | .br _ _ | .addReg _ _ _ | .addImm _ _ _ | .ld _ _ | .jsrr _ | .jsr _ | .andReg _ _ _
  | .andImm _ _ _ | .ldr _ _ _ | .rti | .not _ _ | .ldi _ _ | .jmp _ | .res | .lea _ _ | .getc | .out
  | .puts | .inp | .putsp | .halt | .trap _ => none

/-- GETC and IN, which take a keystroke (R24, R97). -/
def takesKey : Instr → Bool
  | .getc | .inp => true
  | .br _ _ | .addReg _ _ _ | .addImm _ _ _ | .ld _ _ | .st _ _ | .jsrr _ | .jsr _ | .andReg _ _ _
  | .andImm _ _ _ | .ldr _ _ _ | .str _ _ _ | .rti | .not _ _ | .ldi _ _ | .sti _ _ | .jmp _ | .res
  | .lea _ _ | .out | .puts | .putsp | .halt | .trap _ => false

/-- OUT, PUTS, IN and PUTSP, the services that write output (R97). -/
def writesOutput : Instr → Bool
  | .out | .puts | .inp | .putsp => true
  | .br _ _ | .addReg _ _ _ | .addImm _ _ _ | .ld _ _ | .st _ _ | .jsrr _ | .jsr _ | .andReg _ _ _
  | .andImm _ _ _ | .ldr _ _ _ | .str _ _ _ | .rti | .not _ _ | .ldi _ _ | .sti _ _ | .jmp _ | .res
  | .lea _ _ | .getc | .halt | .trap _ => false

/-- The byte at position `j` of a packed string at `a`: low byte of the first word, its high byte, low
byte of the next word, and so on (R92, R37 (b)). -/
def packedByte (s : State) (a : Word) (j : Nat) : Byte :=
  if j % 2 = 0 then lowByte (memPeek s (a + BitVec.ofNat 16 (j / 2)))
  else highByte (memPeek s (a + BitVec.ofNat 16 (j / 2)))

end Sys2Proof.Machine
end

