-- ==== Sys2Proof/Certificates/Slice0/Obligations.lean ====
section
/-! DEFINITION. The statements for the provers. Each docstring names the rule of spec/ it comes from;
where a clause rests on a choice of the spec or of the model, the docstring says so and names the log
entry under notes/assumptions. The opcode numbers, field places, condition codes and addresses occur
only under their names in Config (log 5 to 10, 32). -/

open Sys2Proof Sys2Proof.Machine

/-! ## Encoding and operands -/

/-- Decoding an encoded well-formed instruction gives it back, for every operand (R47 to R58). The
encodings are the spec's decisions (log 8 to 10). -/
def Obligations.DecodeInvertsEncode : Prop :=
  ∀ i : Instr, i.WellFormed → decode (encode i) = i

/-- Encoding a decoded word gives the word back on every bit that is not ignored, and the conventional
values on the ignored ones (R61; D4, log 11). -/
def Obligations.EncodeInvertsDecode : Prop :=
  ∀ w : Word,
    encode (decode w) &&& ~~~(decode w).ignoredBits = w &&& ~~~(decode w).ignoredBits ∧
    encode (decode w) &&& (decode w).ignoredBits = (decode w).conventionalIgnored

/-- Every word decodes to a well-formed instruction, and of the rows of R47 it matches exactly the one
of the instruction it decodes to (R46, R47; the numbers are D1 to D3, log 8 to 10). -/
def Obligations.EveryWordSelectsItsRow : Prop :=
  ∀ w : Word, (decode w).WellFormed ∧ (decode w).row ∈ opcodeRows ∧
    ∀ row ∈ opcodeRows, w &&& row.mask = row.pattern ↔ row = (decode w).row

/-- Words that agree on every bit that is not ignored decode alike (R61; ignoring them is the spec's
decision D4, log 11). -/
def Obligations.IgnoredBitsDoNotMatter : Prop :=
  ∀ w w' : Word, w' &&& ~~~(decode w).ignoredBits = w &&& ~~~(decode w).ignoredBits →
    decode w' = decode w

/-- Words written out from the encodings of the spec decode to the instructions they stand for, one or
more per family (vectors W2 to W27 of 95_test_vectors.md; numbers D1 to D4, log 8 to 11). -/
def Obligations.SampleWordsDecode : Prop :=
  decode 0b0000111000000101 = .br 0b111 5 ∧
  decode 0b0001000001111101 = .addImm .r0 .r1 0b11101 ∧
  decode 0b0101010011000100 = .andReg .r2 .r3 .r4 ∧
  decode 0b1001011010111111 = .not .r3 .r2 ∧
  decode 0b0110101001000001 = .ldr .r5 .r1 1 ∧
  decode 0b1011010000001001 = .sti .r2 9 ∧
  decode 0b0100011110111111 = .jsrr .r6 ∧
  decode 0b1111111100100101 = .halt

/-- Sign extension (R8): the formula of the rule, the signed value kept, and the ranges, at the four
widths of the instruction set. -/
def Obligations.SignExtensionKeepsValue : Prop :=
  ∀ n : Nat, n ∈ [5, 6, 9, 11] → ∀ f : BitVec n,
    (sext f).toNat = (if f.getLsbD (n - 1) then f.toNat + (65536 - 2 ^ n) else f.toNat) ∧
    (sext f).toInt = f.toInt ∧
    (-(2 ^ (n - 1) : Int) ≤ (sext f).toInt ∧ (sext f).toInt < (2 ^ (n - 1) : Int))

/-- The effective addresses (R85, R30, R59): base or incremented PC plus the signed offset, modulo
65536; the indirect mode reads its pointer word with MemRead. The sign extension of every offset is
the spec's decision D10 (log 14). -/
def Obligations.EffectiveAddressesWrap : Prop :=
  ∀ s : State,
    (∀ off : BitVec 9, ((pcRel s off).toNat : Int) = ((s.pc.toNat : Int) + off.toInt) % 65536) ∧
    (∀ off : BitVec 11, ((pcRel s off).toNat : Int) = ((s.pc.toNat : Int) + off.toInt) % 65536) ∧
    (∀ (base : Reg) (off : BitVec 6), ((baseOff s base off).toNat : Int) =
      (((s.getReg base).toNat : Int) + off.toInt) % 65536) ∧
    (∀ off : BitVec 9, indirect s off = memRead s (pcRel s off))

/-! ## The flags and the ALU -/

/-- `setcc` (R19): COND becomes the code of the register's 16-bit value, and nothing else changes. -/
def Obligations.SetccClassifies : Prop :=
  ∀ (s : State) (r : Reg),
    (s.getReg r = 0 → (setcc s r).cond = Config.flZro) ∧
    (s.getReg r ≠ 0 → (s.getReg r).getLsbD 15 = true → (setcc s r).cond = Config.flNeg) ∧
    (s.getReg r ≠ 0 → (s.getReg r).getLsbD 15 = false → (setcc s r).cond = Config.flPos) ∧
    RegsSame s (setcc s r) ∧ (setcc s r).pc = s.pc ∧ MemSame s (setcc s r) ∧
    (setcc s r).running = s.running ∧ HostSame s (setcc s r)

/-- ADD, register form (R66): the sum modulo 65536, the flags of the result, nothing else. -/
def Obligations.AddRegisterForm : Prop :=
  ∀ (dr sr1 sr2 : Reg) (s : State), ∃ t, exec (.addReg dr sr1 sr2) s = .next t ∧
    (t.getReg dr).toNat = ((s.getReg sr1).toNat + (s.getReg sr2).toNat) % 65536 ∧
    FlagsOf (t.getReg dr) t.cond ∧ OnlyDestAndCond dr s t

/-- ADD, immediate form (R67): the signed immediate is added modulo 65536. -/
def Obligations.AddImmediateForm : Prop :=
  ∀ (dr sr1 : Reg) (imm : BitVec 5) (s : State), ∃ t, exec (.addImm dr sr1 imm) s = .next t ∧
    ((t.getReg dr).toNat : Int) = (((s.getReg sr1).toNat : Int) + imm.toInt) % 65536 ∧
    FlagsOf (t.getReg dr) t.cond ∧ OnlyDestAndCond dr s t

/-- AND, register form (R68), bit by bit. -/
def Obligations.AndRegisterForm : Prop :=
  ∀ (dr sr1 sr2 : Reg) (s : State), ∃ t, exec (.andReg dr sr1 sr2) s = .next t ∧
    (∀ k < 16, (t.getReg dr).getLsbD k = ((s.getReg sr1).getLsbD k && (s.getReg sr2).getLsbD k)) ∧
    FlagsOf (t.getReg dr) t.cond ∧ OnlyDestAndCond dr s t

/-- AND, immediate form (R69): the immediate's sign bit stands in bits 15..5. -/
def Obligations.AndImmediateForm : Prop :=
  ∀ (dr sr1 : Reg) (imm : BitVec 5) (s : State), ∃ t, exec (.andImm dr sr1 imm) s = .next t ∧
    (∀ k < 16, (t.getReg dr).getLsbD k =
      ((s.getReg sr1).getLsbD k && (if k < 5 then imm.getLsbD k else imm.getLsbD 4))) ∧
    FlagsOf (t.getReg dr) t.cond ∧ OnlyDestAndCond dr s t

/-- NOT (R70): 65535 minus the source. -/
def Obligations.NotComplements : Prop :=
  ∀ (dr sr : Reg) (s : State), ∃ t, exec (.not dr sr) s = .next t ∧
    (t.getReg dr).toNat = 65535 - (s.getReg sr).toNat ∧
    FlagsOf (t.getReg dr) t.cond ∧ OnlyDestAndCond dr s t

/-! ## Control transfer -/

/-- BR (R73, R52): taken exactly when COND and the mask share a bit of bits 2..0 (the bitwise test, D11,
log 15); PC is then the incremented PC plus the signed offset, else it stays; nothing else changes. On
the three states, mask bit n selects NEGATIVE, z ZERO and p POSITIVE (which bit means which state is D5,
log 7), and a COND word of 0 takes no branch. -/
def Obligations.BranchTestsBitwise : Prop :=
  (∀ (nzp : BitVec 3) (off : BitVec 9) (s : State), ∃ t, exec (.br nzp off) s = .next t ∧
    ((∃ k < 3, s.cond.getLsbD k = true ∧ nzp.getLsbD k = true) →
      (t.pc.toNat : Int) = ((s.pc.toNat : Int) + off.toInt) % 65536) ∧
    ((∀ k < 3, s.cond.getLsbD k = false ∨ nzp.getLsbD k = false) → t.pc = s.pc) ∧
    OnlyPc s t) ∧
  (∀ (n z p : Bool) (off : BitVec 9) (s : State),
    (s.cond = Config.flNeg → exec (.br (nzpMask n z p) off) s =
      .next (if n then s.setPc (pcRel s off) else s)) ∧
    (s.cond = Config.flZro → exec (.br (nzpMask n z p) off) s =
      .next (if z then s.setPc (pcRel s off) else s)) ∧
    (s.cond = Config.flPos → exec (.br (nzpMask n z p) off) s =
      .next (if p then s.setPc (pcRel s off) else s)) ∧
    (s.cond = 0 → exec (.br (nzpMask n z p) off) s = .next s))

/-- JMP (R74): PC becomes the base register's value, nothing else changes. -/
def Obligations.JmpGoesToBase : Prop :=
  ∀ (base : Reg) (s : State), ∃ t, exec (.jmp base) s = .next t ∧ t.pc = s.getReg base ∧ OnlyPc s t

/-- JSR (R75): R7 gets the incremented PC, and the target is relative to that same PC. -/
def Obligations.JsrLinksAndJumps : Prop :=
  ∀ (off : BitVec 11) (s : State), ∃ t, exec (.jsr off) s = .next t ∧ t.getReg .r7 = s.pc ∧
    (t.pc.toNat : Int) = ((s.pc.toNat : Int) + off.toInt) % 65536 ∧ OnlyRegAndPc .r7 s t

/-- JSRR (R76): R7 gets the incremented PC; the target is the base register's value, which for R7 is the
value just written. The order of the two writes is D12 (log 16). -/
def Obligations.JsrrLinksAndJumps : Prop :=
  ∀ (base : Reg) (s : State), ∃ t, exec (.jsrr base) s = .next t ∧ t.getReg .r7 = s.pc ∧
    t.pc = (if base = .r7 then s.pc else s.getReg base) ∧ OnlyRegAndPc .r7 s t

/-! ## The memory primitives -/

/-- MemRead (R31): the status address is polled and latched first and the word returned is the stored
one after that; every other address returns its stored word and nothing changes. The fetch, LD, LDI, LDR
and STI read memory with it. -/
def Obligations.MemReadRoutesThroughShim : Prop :=
  ∀ (s : State) (a : Word),
    (a = Config.kbsrAddr → (memRead s a).2 = keyboardPollAndLatch s ∧
      (memRead s a).1 = memPeek (keyboardPollAndLatch s) a) ∧
    (a ≠ Config.kbsrAddr → (memRead s a).2 = s ∧ (memRead s a).1 = memPeek s a) ∧
    (s.running = true →
      step s = exec (decode (memRead s s.pc).1) ((memRead s s.pc).2.setPc (s.pc + 1))) ∧
    (∀ dr off, a = pcRel s off →
      exec (.ld dr off) s = .next (writeDest (memRead s a).2 dr (memRead s a).1)) ∧
    (∀ dr base off, a = baseOff s base off →
      exec (.ldr dr base off) s = .next (writeDest (memRead s a).2 dr (memRead s a).1)) ∧
    (∀ dr off b t, memRead s (pcRel s off) = (b, t) →
      exec (.ldi dr off) s = .next (writeDest (memRead t b).2 dr (memRead t b).1)) ∧
    (∀ sr off b t, memRead s (pcRel s off) = (b, t) →
      exec (.sti sr off) s = .next (memWrite t b (s.getReg sr)))

/-- The keyboard latch (R34): what a read of the status address answers and changes, with and without a
pending keystroke; a value stored at the status address is never returned by such a read, which leaves
memory reading as if the store had not been (R36). The whole-word values are D8 (log 12), the consumption
D9 (log 13). -/
def Obligations.StatusReadPollsAndLatches : Prop :=
  ∀ s t : State, (memRead s Config.kbsrAddr).2 = t →
    (s.inQueue = [] → (memRead s Config.kbsrAddr).1 = 0x0000 ∧
      memPeek t Config.kbsrAddr = 0x0000 ∧ MemSameBut [Config.kbsrAddr] s t ∧ t.inQueue = []) ∧
    (∀ c q, s.inQueue = c :: q → (memRead s Config.kbsrAddr).1 = 0x8000 ∧
      memPeek t Config.kbsrAddr = 0x8000 ∧ (memPeek t Config.kbdrAddr).toNat = c.toNat ∧
      MemSameBut [Config.kbsrAddr, Config.kbdrAddr] s t ∧ t.inQueue = q) ∧
    (RegsSame s t ∧ t.pc = s.pc ∧ t.cond = s.cond ∧ t.running = s.running ∧ t.trace = s.trace) ∧
    (∀ v, (memRead (memWrite s Config.kbsrAddr v) Config.kbsrAddr).1 =
        (memRead s Config.kbsrAddr).1 ∧
      MemSame t (memRead (memWrite s Config.kbsrAddr v) Config.kbsrAddr).2)

/-- Reading the data address (R35) returns its stored word and changes nothing; the word is the code
latched by the last status read that found a key, or what a store put there since. -/
def Obligations.DataReadIsInert : Prop :=
  ∀ s : State,
    memRead s Config.kbdrAddr = (memPeek s Config.kbdrAddr, s) ∧
    (∀ c q, s.inQueue = c :: q →
      (memRead (memRead s Config.kbsrAddr).2 Config.kbdrAddr).1.toNat = c.toNat) ∧
    (s.inQueue = [] → (memRead (memRead s Config.kbsrAddr).2 Config.kbdrAddr).1 =
      memPeek s Config.kbdrAddr) ∧
    (∀ v, (memRead (memWrite s Config.kbdrAddr v) Config.kbdrAddr).1 = v) ∧
    (∀ a v, a ≠ Config.kbdrAddr →
      (memRead (memWrite s a v) Config.kbdrAddr).1 = memPeek s Config.kbdrAddr)

/-- MemWrite (R32): the word at the address becomes the value at every address, and nothing else
changes: no other word, no poll, no output. -/
def Obligations.StoreIsDirect : Prop :=
  ∀ (s : State) (a v : Word),
    memPeek (memWrite s a v) a = v ∧ (∀ b, b ≠ a → memPeek (memWrite s a v) b = memPeek s b) ∧
    OnlyWord a s (memWrite s a v)

/-! ## Loads and stores -/

/-- LD (R78). The signed offset is D10 (log 14). -/
def Obligations.LdLoadsPcRelative : Prop :=
  ∀ (dr : Reg) (off : BitVec 9) (s : State), ∃ t, exec (.ld dr off) s = .next t ∧
    LoadedFrom s dr (pcRel s off) t ∧
    (pcRel s off ≠ Config.kbsrAddr → t.getReg dr = memPeek s (pcRel s off) ∧
      OnlyDestAndCond dr s t)

/-- LDI (R79): the pointer's read, then the read through it, both with MemRead; the round trip of the
document's §8 when neither address is the status address. The signed offset is D10 (log 14). -/
def Obligations.LdiLoadsThroughPointer : Prop :=
  ∀ (dr : Reg) (off : BitVec 9) (s : State), ∃ t, exec (.ldi dr off) s = .next t ∧
    LoadedFrom (memRead s (pcRel s off)).2 dr (memRead s (pcRel s off)).1 t ∧
    (pcRel s off ≠ Config.kbsrAddr → memPeek s (pcRel s off) ≠ Config.kbsrAddr →
      t.getReg dr = memPeek s (memPeek s (pcRel s off)) ∧ OnlyDestAndCond dr s t) ∧
    RegsSameBut dr s t ∧ t.pc = s.pc ∧ t.running = s.running ∧ t.trace = s.trace

/-- LDR (R80): the base is read before the destination is written. Offsets are signed by D10
(log 14). -/
def Obligations.LdrLoadsBaseOffset : Prop :=
  ∀ (dr base : Reg) (off : BitVec 6) (s : State), ∃ t, exec (.ldr dr base off) s = .next t ∧
    LoadedFrom s dr (baseOff s base off) t ∧
    (baseOff s base off ≠ Config.kbsrAddr → t.getReg dr = memPeek s (baseOff s base off) ∧
      OnlyDestAndCond dr s t)

/-- LEA (R81): the address, the flags of the address as a signed number, and no memory access: the
queue and memory stay even when the address is the keyboard status address. The signed offset is D10
(log 14, DEDUCED). -/
def Obligations.LeaComputesAddress : Prop :=
  ∀ (dr : Reg) (off : BitVec 9) (s : State), ∃ t, exec (.lea dr off) s = .next t ∧
    ((t.getReg dr).toNat : Int) = ((s.pc.toNat : Int) + off.toInt) % 65536 ∧
    FlagsOf (t.getReg dr) t.cond ∧ OnlyDestAndCond dr s t

/-- ST (R82): the source's value stands at the PC-relative address, nothing else changes. The signed offset
is D10 (log 14). -/
def Obligations.StStoresPcRelative : Prop :=
  ∀ (sr : Reg) (off : BitVec 9) (s : State), ∃ t, exec (.st sr off) s = .next t ∧
    memPeek t (pcRel s off) = s.getReg sr ∧ OnlyWord (pcRel s off) s t

/-- STI (R83): the pointer is read with MemRead, the store through it is direct; nothing changes but
what that read changes and the word stored. The signed offset is D10 (log 14). -/
def Obligations.StiStoresThroughPointer : Prop :=
  ∀ (sr : Reg) (off : BitVec 9) (s : State), ∃ t, exec (.sti sr off) s = .next t ∧
    memPeek t (indirect s off).1 = s.getReg sr ∧
    OnlyWord (indirect s off).1 (memRead s (pcRel s off)).2 t ∧
    (pcRel s off ≠ Config.kbsrAddr →
      (indirect s off).1 = memPeek s (pcRel s off) ∧ OnlyWord (indirect s off).1 s t) ∧
    RegsSame s t ∧ t.pc = s.pc ∧ t.cond = s.cond ∧ t.running = s.running ∧ t.trace = s.trace

/-- STR (R84). The separate base field is D11 (log 15), the signed offset D10 (log 14). -/
def Obligations.StrStoresBaseOffset : Prop :=
  ∀ (sr base : Reg) (off : BitVec 6) (s : State), ∃ t, exec (.str sr base off) s = .next t ∧
    memPeek t (baseOff s base off) = s.getReg sr ∧ OnlyWord (baseOff s base off) s t

/-- A store to the next instruction's address is what executes next (R43). Rests on the condition that
the address is not the status address, whose stored word no fetch returns. -/
def Obligations.StoredCodeRunsNext : Prop :=
  ∀ (s : State) (sr : Reg), s.running = true → decode (fetch s).1 = .st sr 0 →
    s.pc + 1 ≠ Config.kbsrAddr →
    ∃ t, step s = .next t ∧ t.pc = s.pc + 1 ∧
      step t = exec (decode (s.getReg sr)) (t.setPc (s.pc + 2))

/-! ## TRAP -/

/-- The dispatcher (R86): each of the six vectors does what its service does, any other nothing; TRAP
never touches PC, COND or R7. That COND stays for the vectors of GETC and IN is D14 (log 18). That
memory stays, which R97 marks [derived], rests for those of PUTS and PUTSP on D13: the scans do not poll
(log 17). -/
def Obligations.TrapDispatchesOnVector : Prop :=
  ∀ (v : Byte) (s : State),
    (v = 0x20 → exec (.trap v) s = exec .getc s) ∧
    (v = 0x21 → exec (.trap v) s = exec .out s) ∧
    (v = 0x22 → exec (.trap v) s = exec .puts s) ∧
    (v = 0x23 → exec (.trap v) s = exec .inp s) ∧
    (v = 0x24 → exec (.trap v) s = exec .putsp s) ∧
    (v = 0x25 → exec (.trap v) s = exec .halt s) ∧
    ((v.toNat < 0x20 ∨ 0x25 < v.toNat) → exec (.trap v) s = .next s) ∧
    (∀ t, exec (.trap v) s = .next t →
      t.pc = s.pc ∧ t.cond = s.cond ∧ t.getReg .r7 = s.getReg .r7 ∧ MemSame s t)

/-- GETC (R88): the pending keystroke leaves the queue and its code, zero-extended, stands in R0; COND is
left alone (D14, log 18); no output. -/
def Obligations.GetcReadsOneKey : Prop :=
  ∀ (s : State) (c : Byte) (q : List Byte), s.inQueue = c :: q → ∃ t, exec .getc s = .next t ∧
    (t.getReg .r0).toNat = c.toNat ∧ t.inQueue = q ∧ t.trace = s.trace ∧ OnlyR0 s t

/-- GETC and IN hold while no keystroke is pending: no next state (R88, R91, R116; D18, log 22 and
23). -/
def Obligations.InputServicesHold : Prop :=
  ∀ s : State, s.inQueue = [] →
    exec .getc s = .fault .awaitingInput ∧ exec .inp s = .fault .awaitingInput

/-- OUT (R89): the low byte of R0 and a flush are appended to the trace; the low byte is D15
(log 19). -/
def Obligations.OutWritesLowByte : Prop :=
  ∀ s : State, ∃ t, exec .out s = .next t ∧
    (∃ b : Byte, b.toNat = (s.getReg .r0).toNat % 256 ∧
      t.trace = s.trace ++ [.conOut b, .conFlush]) ∧ OnlyTrace s t

/-- PUTS (R90): with the first zero word at distance `d` from R0, the low bytes of the `d` words before
it are written and then a flush; the scan wraps and reads without polling (D13, log 17). The low byte is
D15 (log 19). -/
def Obligations.PutsWritesUpToZeroWord : Prop :=
  ∀ (s : State) (d : Nat), d < 65536 →
    (∀ k < d, memPeek s (s.getReg .r0 + BitVec.ofNat 16 k) ≠ 0) →
    memPeek s (s.getReg .r0 + BitVec.ofNat 16 d) = 0 →
    ∃ t, exec .puts s = .next t ∧
      t.trace = s.trace ++
        (List.range d).map (fun k =>
          OutEvent.conOut (lowByte (memPeek s (s.getReg .r0 + BitVec.ofNat 16 k)))) ++
        [.conFlush] ∧
      OnlyTrace s t

/-- IN (R91): the prompt, then the echo, are appended to the trace with no flush, the keystroke leaves
the queue and its code stands in R0; COND is left alone. The prompt, echo and missing flush are D17
(log 21), COND is D14 (log 18). -/
def Obligations.InPromptsReadsAndEchoes : Prop :=
  ∀ (s : State) (c : Byte) (q : List Byte), s.inQueue = c :: q → ∃ t, exec .inp s = .next t ∧
    (t.getReg .r0).toNat = c.toNat ∧ t.inQueue = q ∧
    t.trace = s.trace ++ Config.inPrompt.map OutEvent.conOut ++ [.conOut c] ∧ OnlyR0 s t

/-- PUTSP (R92): the bytes in the order low, high, low, high up to the first zero byte are written and
then a flush. Stopping at the first zero byte is D16 (log 20), reading without polling D13 (log 17), and
that PUTSP prints at all, where the reference program does not, D11 (log 15). -/
def Obligations.PutspWritesUpToZeroByte : Prop :=
  ∀ (s : State) (n : Nat), n < 131072 →
    (∀ j < n, packedByte s (s.getReg .r0) j ≠ 0) → packedByte s (s.getReg .r0) n = 0 →
    ∃ t, exec .putsp s = .next t ∧
      t.trace = s.trace ++
        (List.range n).map (fun j => OutEvent.conOut (packedByte s (s.getReg .r0) j)) ++
        [.conFlush] ∧
      OnlyTrace s t

/-- PUTS has no next state exactly when memory holds no zero word, PUTSP exactly when no word holds a zero
byte (R90, R92, R116). That the hang is a stop without successor is D22; its name is the model's
(log 24). That the words are the stored ones, with no poll, is D13 (log 17), and that PUTSP ends at a zero
byte is D16 (log 20). -/
def Obligations.ScansHangWithoutTerminator : Prop :=
  ∀ s : State,
    (exec .puts s = .fault .unterminatedScan ↔ ∀ a, memPeek s a ≠ 0) ∧
    (exec .putsp s = .fault .unterminatedScan ↔
      ∀ a, lowByte (memPeek s a) ≠ 0 ∧ highByte (memPeek s a) ≠ 0)

/-- HALT (R93): RUNNING becomes 0 and nothing else changes, no output (D25, log 15). -/
def Obligations.HaltStopsTheMachine : Prop :=
  ∀ s : State, ∃ t, exec .halt s = .next t ∧ t.running = false ∧ RegsSame s t ∧ t.pc = s.pc ∧
    t.cond = s.cond ∧ MemSame s t ∧ HostSame s t

/-- Undefined vectors (R94): a TRAP word whose low byte is in 0x00..0x1F or 0x26..0xFF changes nothing
but what its fetch changed, and PC has advanced. -/
def Obligations.UndefinedVectorIsNoOp : Prop :=
  (∀ (v : Byte) (s : State), v.toNat < 0x20 ∨ 0x25 < v.toNat → exec (.trap v) s = .next s) ∧
  ∀ s : State, s.running = true → opcodeOf (memRead s s.pc).1 = Config.opcTrap →
    ((lowByte (memRead s s.pc).1).toNat < 0x20 ∨ 0x25 < (lowByte (memRead s s.pc).1).toNat) →
    step s = .next (s.setPc (s.pc + 1))

/-- RTI and RES (R95, R96): nothing but the fetch and its PC increment happens (C6; log 30). The opcode
numbers are D1 (log 8). -/
def Obligations.ReservedOpcodesAreNoOps : Prop :=
  (∀ s : State, exec .rti s = .next s ∧ exec .res s = .next s) ∧
  ∀ s : State, s.running = true →
    (opcodeOf (memRead s s.pc).1 = Config.opcRti ∨ opcodeOf (memRead s s.pc).1 = Config.opcRes) →
    step s = .next ((memRead s s.pc).2.setPc (s.pc + 1))

/-! ## The step -/

/-- A step runs the decoded instruction (R21): from RUNNING 1, the word MemRead answers at PC is decoded
and executed on the state after that read with PC advanced by 1. -/
def Obligations.StepRunsDecodedInstruction : Prop :=
  ∀ (s : State) (i : Instr), s.running = true → decode (memRead s s.pc).1 = i →
    step s = exec i ((memRead s s.pc).2.setPc (s.pc + 1)) ∧ i.WellFormed

/-- RUNNING (R20): 1 at the start, set to 0 by HALT, set back to 1 by no instruction, read by none; with
it 1 the core fetches and executes, with it 0 there is no step. The stop of a halted step is named by
the model (log 25). -/
def Obligations.RunningGatesTheCycle : Prop :=
  (∀ mem regs cond q, (State.resetWith mem regs cond q).running = true) ∧
  (∀ s : State, ∃ t, exec .halt s = .next t ∧ t.running = false) ∧
  (∀ s : State, s.running = true → step s = exec (decode (fetch s).1) (fetch s).2) ∧
  (∀ s : State, s.running = false → ∀ t, step s ≠ .next t) ∧
  (∀ (i : Instr) (s t : State), exec i s = .next t → s.running = false → t.running = false) ∧
  (∀ (i : Instr) (s t : State) (b : Bool), exec i s = .next t →
    ∃ c, exec i (s.setRunning b) = .next (t.setRunning c))

/-- A step's outcomes (R11, R98): from RUNNING 1 it has a next state, or it is a GETC or IN held on an
empty queue, or a PUTS or PUTSP whose scan never ends; nothing is refused. The stops' names are the
model's (log 23, 24). -/
def Obligations.StepOutcomesAreComplete : Prop :=
  ∀ s : State, s.running = true →
    (∃ t, step s = .next t) ∨
    ((decode (memRead s s.pc).1 = .getc ∨ decode (memRead s s.pc).1 = .inp) ∧ s.inQueue = [] ∧
      step s = .fault .awaitingInput) ∨
    ((decode (memRead s s.pc).1 = .puts ∨ decode (memRead s s.pc).1 = .putsp) ∧
      (∀ a, memPeek s a ≠ 0) ∧ step s = .fault .unterminatedScan)

/-- RUNNING falls only by HALT (R20, R113): after a step it is 0 exactly when the word fetched is a HALT
word. -/
def Obligations.RunningFallsOnlyByHalt : Prop :=
  ∀ s t : State, step s = .next t →
    s.running = true ∧ (t.running = false ↔ decode (memRead s s.pc).1 = .halt)

/-- Who writes COND (R22): the seven flag-updating instructions, from their destination, so that it is one
of the three codes; every other leaves it (for GETC and IN by D14, log 18). Once it is one of the three
codes it stays one of them (R18, C7). -/
def Obligations.CondWrittenByTheSeven : Prop :=
  ∀ (i : Instr) (s t : State), exec i s = .next t →
    (∀ dr, flagDest i = some dr → FlagsOf (t.getReg dr) t.cond ∧ t.cond ≠ 0) ∧
    (flagDest i = none → t.cond = s.cond) ∧
    (s.cond = Config.flPos ∨ s.cond = Config.flZro ∨ s.cond = Config.flNeg →
      t.cond = Config.flPos ∨ t.cond = Config.flZro ∨ t.cond = Config.flNeg)

/-- Which register each instruction writes (R15): at most the one named, R7 with the return address by
JSR and JSRR, R0 by GETC and IN; TRAP and the rest write none. That R0 is the zero-extended code is D14
(R88, R91, R9; log 18). -/
def Obligations.RegistersWrittenByEach : Prop :=
  ∀ (i : Instr) (s t : State), i.WellFormed → exec i s = .next t →
    (∀ r, writtenReg i ≠ some r → t.getReg r = s.getReg r) ∧
    (∀ off, i = .jsr off → t.getReg .r7 = s.pc) ∧ (∀ base, i = .jsrr base → t.getReg .r7 = s.pc) ∧
    (∀ c q, i = .getc ∨ i = .inp → s.inQueue = c :: q → t.getReg .r0 = zextByte c)

/-- PC after a step (R16, R17): a step that is not BR, JMP, JSR or JSRR leaves the old PC plus 1, wrapping
at 65536, and the body of no other instruction writes PC. -/
def Obligations.PcWrittenOnlyByTransfers : Prop :=
  (∀ (i : Instr) (s t : State), exec i s = .next t → isTransfer i = false → t.pc = s.pc) ∧
  ∀ s t : State, step s = .next t → isTransfer (decode (memRead s s.pc).1) = false →
    t.pc.toNat = (s.pc.toNat + 1) % 65536

/-- The memory frame of every instruction (R29): no byte changes outside the word stored to and, when a
MemRead of the body is at the status address, the two device words. That the scans of PUTS and PUTSP do
not poll is D13 (log 17). -/
def Obligations.MemoryFrameOfEveryInstruction : Prop :=
  ∀ (i : Instr) (s t : State), exec i s = .next t → ∀ k,
    (∀ a, storeAddr s i = some a → k ≠ hiCell a ∧ k ≠ loCell a) →
    (Config.kbsrAddr ∈ readAddrs s i →
      k ≠ hiCell Config.kbsrAddr ∧ k ≠ loCell Config.kbsrAddr ∧
      k ≠ hiCell Config.kbdrAddr ∧ k ≠ loCell Config.kbdrAddr) →
    t.mem.readByte k = s.mem.readByte k

/-- The input queue (R24 (a)): an instruction only takes keystrokes from its head, one for a GETC or IN
and at most one for each MemRead of the status address, and none otherwise. That a status read takes the
key is D9 (log 13), that the scans of PUTS and PUTSP do not poll is D13 (log 17). -/
def Obligations.InputQueueOnlyShrinks : Prop :=
  ∀ (i : Instr) (s t : State), i.WellFormed → exec i s = .next t →
    ∃ taken, s.inQueue = taken ++ t.inQueue ∧
      taken.length ≤ (readAddrs s i).count Config.kbsrAddr + (if takesKey i then 1 else 0) ∧
      (takesKey i = true → taken.length = 1)

/-- The output trace (R24 (b), R97): it is only appended to, and only by OUT, PUTS, IN and PUTSP.
That PUTSP prints is D11 and that HALT does not is D25 (log 15). -/
def Obligations.TraceGrowsByOutputServices : Prop :=
  ∀ (i : Instr) (s t : State), i.WellFormed → exec i s = .next t →
    ∃ evs, t.trace = s.trace ++ evs ∧ (writesOutput i = false → evs = [])

/-- The output trace is never read (R24: a flush "changes no state the core can observe"): a step from a
state with another trace does the same to everything else and appends the same events. -/
def Obligations.TraceIsNeverRead : Prop :=
  ∀ s t : State, step s = .next t → ∃ evs, t.trace = s.trace ++ evs ∧
    ∀ tr, ∃ t', step { s with trace := tr } = .next t' ∧ t' = { t with trace := tr ++ evs }

/-! ## Invariants -/

/-- The invariant at reset, for every memory in canonical form, every register value, every queue and every
admissible `COND_RESET` (R27); the model's own reset state is one of these (log 2 to 4, 22). -/
def Obligations.ResetMeetsInvariant : Prop :=
  State.reset.Inv ∧
  ∀ mem regs cond q, mem.wf = true → CondLegal cond → (State.resetWith mem regs cond q).Inv

/-- Every step keeps the invariant: memory stays canonical (the model's form of R13, log 1) and COND stays
one of the three codes or the reset word 0 (R18). -/
def Obligations.StepKeepsInvariant : Prop :=
  ∀ s t : State, s.Inv → step s = .next t → t.Inv

/-- Every run with its host, from any state that meets the invariant, keeps it, and only appends to the
trace; a run that ends in a next state holds no abort (R24, R100; the events are the model's form of D18,
D21 and D26, log 22 and 26; what an event does once RUNNING is 0 is the model's choice, log 34). -/
def Obligations.RunKeepsInvariant : Prop :=
  ∀ (es : List RunEvent) (s t : State), s.Inv → runEvents es s = .next t →
    t.Inv ∧ s.trace <+: t.trace ∧ RunEvent.abort ∉ es

/-! ## Reset and loading -/

/-- The machine after reset (R27): PC at `PC_START`, RUNNING 1, an empty trace. The registers, COND, memory
and queue are the model's choices among what the spec leaves open (log 2, 3, 4, 22), and the number of
`PC_START` is D6 (log 5). -/
def Obligations.ResetState : Prop :=
  State.reset.pc = Config.pcStart ∧ State.reset.running = true ∧ State.reset.trace = [] ∧
  (∀ r, State.reset.getReg r = 0) ∧ State.reset.cond = Config.flZro ∧
  (∀ a, memPeek State.reset a = 0) ∧ State.reset.inQueue = []

/-- Image load (R108, R109): with the origin in the first big-endian word and `n` complete words after it
that fit, word `k` stands at `origin + k`, every other word and all other state are unmodified. That the
trailing byte of an image of odd length is ignored is D20 (log 27). -/
def Obligations.ImageLoadPlacesWords : Prop :=
  ∀ (s : State) (b0 b1 : Byte) (rest : List Byte),
    b0.toNat * 256 + b1.toNat + rest.length / 2 ≤ 65536 →
    ∃ t, loadImage (.bytes (b0 :: b1 :: rest)) s = .next t ∧
      (∀ (k : Nat) (h : 2 * k + 1 < rest.length),
        (memPeek t (BitVec.ofNat 16 (b0.toNat * 256 + b1.toNat + k))).toNat =
          rest[2 * k].toNat * 256 + rest[2 * k + 1].toNat) ∧
      (∀ a : Word, (a.toNat < b0.toNat * 256 + b1.toNat ∨
          b0.toNat * 256 + b1.toNat + rest.length / 2 ≤ a.toNat) → memPeek t a = memPeek s a) ∧
      RegsSame s t ∧ t.pc = s.pc ∧ t.cond = s.cond ∧ t.running = s.running ∧ HostSame s t

/-- Images that do not load, and several images (R111, R110): an unreadable image and one that passes the
last address give no launch state; one of fewer than two bytes loads nothing (D20); images are loaded
one after another in the order given, so a later one's words remain. The refusals' names and stopping at
the first that fails are the model's (log 27). -/
def Obligations.ImageCornerCasesAndOrder : Prop :=
  ∀ s : State,
    loadImage .unreadable s = .refused .imageUnreadable ∧
    (∀ (b0 b1 : Byte) (rest : List Byte),
      65536 < b0.toNat * 256 + b1.toNat + rest.length / 2 →
      loadImage (.bytes (b0 :: b1 :: rest)) s = .refused .imageOverflow) ∧
    (∀ bs : List Byte, bs.length < 2 → loadImage (.bytes bs) s = .next s) ∧
    (∀ (fs gs : List ImageFile) (t : State), loadImages fs s = .next t →
      loadImages (fs ++ gs) s = loadImages gs t) ∧
    (∀ (fs gs : List ImageFile) (t : State), loadImages (fs ++ gs) s = .next t →
      ∃ u, loadImages fs s = .next u)

/-- The start of a run (R107), from any reset state: the images' words over the reset memory, PC at
`PC_START` whatever the origins are, RUNNING 1, every other piece of state as reset left it; setting PC
before the load comes to the same, an inference that R107 marks [derived]; `launch` is this from
`State.reset`. -/
def Obligations.LaunchStartsAtPcStart : Prop :=
  (∀ fs, launch fs = launchFrom State.reset fs) ∧
  ∀ (s : State) (fs : List ImageFile),
    (∀ u, loadImages fs s = .next u → ∃ t, launchFrom s fs = .next t) ∧
    (∀ t, launchFrom s fs = .next t →
      t.pc = Config.pcStart ∧ t.running = true ∧ RegsSame s t ∧ t.cond = s.cond ∧ HostSame s t ∧
      ∃ u, loadImages fs s = .next u ∧ MemSame u t) ∧
    (∀ u, loadImages fs s = .next u →
      loadImages fs (s.setPc Config.pcStart) = .next (u.setPc Config.pcStart))

/-- Assembling and loading agree (R65, R108, R109): the image of an assembled text loads its words from its
origin on. The assembler's conventions are the spec's general knowledge (D24, log 33). -/
def Obligations.AssembledTextLoads : Prop :=
  ∀ (origin : Word) (ls : List AsmLine) (ws : List Word) (s : State),
    assembleFrom origin ls = some ws → origin.toNat + ws.length ≤ 65536 →
    ∃ bs t, assemble origin ls = some bs ∧ loadImage (.bytes bs) s = .next t ∧
      ∀ (k : Nat) (h : k < ws.length), memPeek t (origin + BitVec.ofNat 16 k) = ws[k]
end

