-- ==== Sys2Proof/Laws/Memory.lean ====
section
/-! SUPPORT. Laws of memory: read after write, a write leaves the rest alone, every operation keeps
the canonical form, and canonical memories that read alike are equal. The read laws hold of every
list, canonical or not. -/

namespace Sys2Proof.Machine

/-! ## Bytes of words -/

/-- Each bit of a word made of two bytes. -/
theorem getLsbD_wordOfBytes (hi lo : Byte) (i : Nat) :
    (wordOfBytes hi lo).getLsbD i = if i < 8 then lo.getLsbD i else hi.getLsbD (i - 8) :=
  BitVec.getLsbD_append

@[simp] theorem highByte_wordOfBytes (hi lo : Byte) : highByte (wordOfBytes hi lo) = hi := by
  apply BitVec.eq_of_getLsbD_eq
  intro i h
  simp [highByte, getLsbD_wordOfBytes]
  omega

@[simp] theorem lowByte_wordOfBytes (hi lo : Byte) : lowByte (wordOfBytes hi lo) = lo := by
  apply BitVec.eq_of_getLsbD_eq
  intro i h
  have h8 : i < 8 := by omega
  simp [lowByte, getLsbD_wordOfBytes, h8]

@[simp] theorem wordOfBytes_bytes (v : Word) : wordOfBytes (highByte v) (lowByte v) = v := by
  apply BitVec.eq_of_getLsbD_eq
  intro i h
  rw [getLsbD_wordOfBytes]
  by_cases h8 : i < 8
  · simp [lowByte, h8]
  · simp [highByte, h8, show 8 + (i - 8) = i by omega, show i - 8 < 8 by omega]

/-! ## Cells of words -/

theorem hiCell_ne_loCell (a b : Word) : hiCell a ≠ loCell b := by
  simp only [hiCell, loCell]; omega

theorem hiCell_inj {a b : Word} (h : hiCell a = hiCell b) : a = b := by
  simp only [hiCell] at h; exact BitVec.eq_of_toNat_eq (by omega)

theorem loCell_inj {a b : Word} (h : loCell a = loCell b) : a = b := by
  simp only [loCell] at h; exact BitVec.eq_of_toNat_eq (by omega)

/-! ## One byte -/

theorem Memory.readByte_eraseByte (m : Memory) (k j : Nat) :
    (m.eraseByte k).readByte j = if j = k then Config.memUnlisted else m.readByte j := by
  induction m with
  | nil => simp [Memory.eraseByte, Memory.readByte]
  | cons c rest ih =>
    simp only [Memory.eraseByte, Memory.readByte]
    by_cases hk : c.1 = k
    · rw [if_pos hk, ih]
      by_cases hj : j = k
      · simp [hj]
      · rw [if_neg hj, if_neg hj, if_neg (by omega)]
    · rw [if_neg hk]
      simp only [Memory.readByte, ih]
      by_cases hj : j = k
      · rw [if_pos hj, if_pos hj, if_neg (by omega)]
      · rw [if_neg hj, if_neg hj]

theorem Memory.readByte_insertByte (m : Memory) (k j : Nat) (v : Byte) :
    ((m.eraseByte k).insertByte k v).readByte j = if j = k then v else m.readByte j := by
  have key : ∀ n : Memory, (∀ c ∈ n, c.1 ≠ k) →
      (n.insertByte k v).readByte j = if j = k then v else n.readByte j := by
    intro n
    induction n with
    | nil => intro _; by_cases hj : j = k <;> simp [Memory.insertByte, Memory.readByte, hj, Ne.symm]
    | cons c rest ih =>
      intro h
      have hc : c.1 ≠ k := h c (by simp)
      simp only [Memory.insertByte]
      split
      · by_cases hj : j = k
        · simp [Memory.readByte, hj]
        · simp [Memory.readByte, hj, Ne.symm hj]
      · simp only [Memory.readByte]
        rw [ih (fun c' hc' => h c' (by simp [hc']))]
        by_cases hj : j = k
        · rw [if_pos hj, if_pos hj, if_neg (by omega)]
        · rw [if_neg hj, if_neg hj]
  have gone : ∀ c ∈ m.eraseByte k, c.1 ≠ k := by
    induction m with
    | nil => simp [Memory.eraseByte]
    | cons c rest ih =>
      simp only [Memory.eraseByte]
      split
      · exact ih
      · intro c' hc'
        rcases List.mem_cons.mp hc' with rfl | hc'
        · assumption
        · exact ih c' hc'
  rw [key _ gone, Memory.readByte_eraseByte]
  by_cases hj : j = k <;> simp [hj]

/-- Read after write of one byte. -/
theorem Memory.readByte_writeByte (m : Memory) (k j : Nat) (v : Byte) :
    (m.writeByte k v).readByte j = if j = k then v else m.readByte j := by
  simp only [Memory.writeByte]
  split
  · rename_i h; rw [Memory.readByte_eraseByte, h]
  · exact Memory.readByte_insertByte m k j v

/-! ## One word -/

/-- A store of a word changes its two bytes and no other. -/
theorem Memory.readByte_writeWord (m : Memory) (a v : Word) (j : Nat) :
    (m.writeWord a v).readByte j =
      if j = loCell a then lowByte v else if j = hiCell a then highByte v else m.readByte j := by
  simp only [Memory.writeWord, Memory.readByte_writeByte]

/-- Read after write of one word. -/
theorem Memory.readWord_writeWord (m : Memory) (a b v : Word) :
    (m.writeWord a v).readWord b = if b = a then v else m.readWord b := by
  simp only [Memory.readWord, Memory.readByte_writeWord]
  by_cases h : b = a
  · subst h; simp [hiCell_ne_loCell]
  · have h1 : hiCell b ≠ hiCell a := fun e => h (hiCell_inj e)
    have h2 : loCell b ≠ loCell a := fun e => h (loCell_inj e)
    simp [h, h1, h2, hiCell_ne_loCell, (hiCell_ne_loCell _ _).symm]

/-- Memory without listed cells reads as the unlisted byte everywhere. -/
@[simp] theorem Memory.readByte_nil (k : Nat) : Memory.readByte [] k = Config.memUnlisted := rfl

/-! ## The canonical form -/

theorem Memory.wfFrom_cons (lo : Nat) (c : Host.Cell) (rest : Memory) :
    Memory.wfFrom lo (c :: rest) = true ↔
      lo ≤ c.1 ∧ c.1 < 2 * Config.memWords ∧ c.2 ≠ Config.memUnlisted ∧
        Memory.wfFrom (c.1 + 1) rest = true := by
  simp [Memory.wfFrom, and_assoc]

theorem Memory.wfFrom_mono {lo lo' : Nat} (h : lo' ≤ lo) :
    ∀ m : Memory, Memory.wfFrom lo m = true → Memory.wfFrom lo' m = true
  | [], _ => rfl
  | c :: rest, hw => by
    rw [Memory.wfFrom_cons] at hw ⊢
    exact ⟨by omega, hw.2.1, hw.2.2.1, hw.2.2.2⟩

theorem Memory.wfFrom_eraseByte (k : Nat) :
    ∀ (m : Memory) (lo : Nat), Memory.wfFrom lo m = true → Memory.wfFrom lo (m.eraseByte k) = true
  | [], _, _ => rfl
  | c :: rest, lo, hw => by
    rw [Memory.wfFrom_cons] at hw
    have ih := Memory.wfFrom_eraseByte k rest (c.1 + 1) hw.2.2.2
    simp only [Memory.eraseByte]
    split
    · exact Memory.wfFrom_mono (by omega) _ ih
    · rw [Memory.wfFrom_cons]; exact ⟨hw.1, hw.2.1, hw.2.2.1, ih⟩

theorem Memory.wfFrom_insertByte {k : Nat} {v : Byte} (hk : k < 2 * Config.memWords)
    (hv : v ≠ Config.memUnlisted) :
    ∀ (m : Memory) (lo : Nat), lo ≤ k → (∀ c ∈ m, c.1 ≠ k) → Memory.wfFrom lo m = true →
      Memory.wfFrom lo (m.insertByte k v) = true
  | [], lo, hlo, _, _ => by
    simp only [Memory.insertByte]; rw [Memory.wfFrom_cons]; exact ⟨hlo, hk, hv, rfl⟩
  | c :: rest, lo, hlo, hne, hw => by
    have hc : c.1 ≠ k := hne c (by simp)
    have hw' := (Memory.wfFrom_cons _ _ _).mp hw
    simp only [Memory.insertByte]
    split
    · rw [Memory.wfFrom_cons]
      exact ⟨hlo, hk, hv, (Memory.wfFrom_cons _ _ _).mpr ⟨by omega, hw'.2⟩⟩
    · rw [Memory.wfFrom_cons]
      exact ⟨hw'.1, hw'.2.1, hw'.2.2.1, Memory.wfFrom_insertByte hk hv rest (c.1 + 1) (by omega)
        (fun c' hc' => hne c' (by simp [hc'])) hw'.2.2.2⟩

theorem Memory.eraseByte_ne (k : Nat) : ∀ (m : Memory), ∀ c ∈ m.eraseByte k, c.1 ≠ k
  | [], c, hc => by simp [Memory.eraseByte] at hc
  | d :: rest, c, hc => by
    simp only [Memory.eraseByte] at hc
    split at hc
    · exact Memory.eraseByte_ne k rest c hc
    · rcases List.mem_cons.mp hc with rfl | hc
      · assumption
      · exact Memory.eraseByte_ne k rest c hc

/-- A write of one byte keeps the canonical form. -/
theorem Memory.wf_writeByte {m : Memory} {k : Nat} (v : Byte) (hk : k < 2 * Config.memWords)
    (h : m.wf = true) : (m.writeByte k v).wf = true := by
  simp only [Memory.wf, Memory.writeByte] at *
  split
  · exact Memory.wfFrom_eraseByte k m 0 h
  · exact Memory.wfFrom_insertByte hk ‹_› _ 0 (by omega) (Memory.eraseByte_ne k m)
      (Memory.wfFrom_eraseByte k m 0 h)

/-- A store of a word keeps the canonical form. -/
theorem Memory.wf_writeWord {m : Memory} (a v : Word) (h : m.wf = true) :
    (m.writeWord a v).wf = true := by
  have ha := a.isLt
  exact Memory.wf_writeByte _ (by simp only [loCell, Config.memWords]; omega)
    (Memory.wf_writeByte _ (by simp only [hiCell, Config.memWords]; omega) h)

/-- Below the first cell nothing is listed. -/
theorem Memory.readByte_of_lt {lo k : Nat} (hk : k < lo) :
    ∀ m : Memory, Memory.wfFrom lo m = true → m.readByte k = Config.memUnlisted
  | [], _ => rfl
  | c :: rest, hw => by
    have hw' := (Memory.wfFrom_cons _ _ _).mp hw
    simp only [Memory.readByte]
    rw [if_neg (by omega)]
    exact Memory.readByte_of_lt (by omega) rest hw'.2.2.2

theorem Memory.ext_readByte_from :
    ∀ (m n : Memory) (lo : Nat), Memory.wfFrom lo m = true → Memory.wfFrom lo n = true →
      (∀ k, m.readByte k = n.readByte k) → m = n
  | [], [], _, _, _, _ => rfl
  | [], d :: n, lo, _, hn, e => by
    have hn' := (Memory.wfFrom_cons _ _ _).mp hn
    have := e d.1; simp [Memory.readByte] at this
    exact absurd this.symm hn'.2.2.1
  | c :: m, [], lo, hm, _, e => by
    have hm' := (Memory.wfFrom_cons _ _ _).mp hm
    have := e c.1; simp [Memory.readByte] at this
    exact absurd this hm'.2.2.1
  | c :: m, d :: n, lo, hm, hn, e => by
    have hm' := (Memory.wfFrom_cons _ _ _).mp hm
    have hn' := (Memory.wfFrom_cons _ _ _).mp hn
    have hkey : c.1 = d.1 := by
      rcases Nat.lt_trichotomy c.1 d.1 with h | h | h
      · have := e c.1
        simp only [Memory.readByte, if_true] at this
        rw [if_neg (by omega), Memory.readByte_of_lt (lo := d.1 + 1) (by omega) n hn'.2.2.2] at this
        exact absurd this hm'.2.2.1
      · exact h
      · have := e d.1
        simp only [Memory.readByte, if_true] at this
        rw [if_neg (by omega), Memory.readByte_of_lt (lo := c.1 + 1) (by omega) m hm'.2.2.2] at this
        exact absurd this.symm hn'.2.2.1
    have hval : c.2 = d.2 := by
      have := e c.1; simpa [Memory.readByte, hkey] using this
    have hcd : c = d := Prod.ext hkey hval
    subst hcd
    congr 1
    refine Memory.ext_readByte_from m n (c.1 + 1) hm'.2.2.2 hn'.2.2.2 fun k => ?_
    by_cases hk : c.1 = k
    · subst hk
      rw [Memory.readByte_of_lt (lo := c.1 + 1) (by omega) m hm'.2.2.2,
        Memory.readByte_of_lt (lo := c.1 + 1) (by omega) n hn'.2.2.2]
    · have := e k; simpa [Memory.readByte, hk] using this

/-- Canonical memories that read alike are the same data. -/
theorem Memory.ext_readByte {m n : Memory} (hm : m.wf = true) (hn : n.wf = true)
    (e : ∀ k, m.readByte k = n.readByte k) : m = n :=
  Memory.ext_readByte_from m n 0 hm hn e

end Sys2Proof.Machine
end

