-- ==== Sys2Proof/Laws/State.lean ====
section
/-! SUPPORT. One lemma per field per state update, and the register file's read after write, so that
no later proof unfolds a record update. -/

namespace Sys2Proof.Machine

/-! `State.setReg` -/

@[simp] theorem State.setReg_mem (s : State) (r : Reg) (v : Word) : (s.setReg r v).mem = s.mem := rfl
@[simp] theorem State.setReg_regs (s : State) (r : Reg) (v : Word) : (s.setReg r v).regs = s.regs.set r v := rfl
@[simp] theorem State.setReg_pc (s : State) (r : Reg) (v : Word) : (s.setReg r v).pc = s.pc := rfl
@[simp] theorem State.setReg_cond (s : State) (r : Reg) (v : Word) : (s.setReg r v).cond = s.cond := rfl
@[simp] theorem State.setReg_running (s : State) (r : Reg) (v : Word) : (s.setReg r v).running = s.running := rfl
@[simp] theorem State.setReg_inQueue (s : State) (r : Reg) (v : Word) : (s.setReg r v).inQueue = s.inQueue := rfl
@[simp] theorem State.setReg_trace (s : State) (r : Reg) (v : Word) : (s.setReg r v).trace = s.trace := rfl

/-! `State.setPc` -/

@[simp] theorem State.setPc_mem (s : State) (t : Word) : (s.setPc t).mem = s.mem := rfl
@[simp] theorem State.setPc_regs (s : State) (t : Word) : (s.setPc t).regs = s.regs := rfl
@[simp] theorem State.setPc_pc (s : State) (t : Word) : (s.setPc t).pc = t := rfl
@[simp] theorem State.setPc_cond (s : State) (t : Word) : (s.setPc t).cond = s.cond := rfl
@[simp] theorem State.setPc_running (s : State) (t : Word) : (s.setPc t).running = s.running := rfl
@[simp] theorem State.setPc_inQueue (s : State) (t : Word) : (s.setPc t).inQueue = s.inQueue := rfl
@[simp] theorem State.setPc_trace (s : State) (t : Word) : (s.setPc t).trace = s.trace := rfl
@[simp] theorem State.setPc_getReg (s : State) (t : Word) (r' : Reg) :
    (s.setPc t).getReg r' = s.getReg r' := rfl

/-! `State.setCond` -/

@[simp] theorem State.setCond_mem (s : State) (c : Word) : (s.setCond c).mem = s.mem := rfl
@[simp] theorem State.setCond_regs (s : State) (c : Word) : (s.setCond c).regs = s.regs := rfl
@[simp] theorem State.setCond_pc (s : State) (c : Word) : (s.setCond c).pc = s.pc := rfl
@[simp] theorem State.setCond_cond (s : State) (c : Word) : (s.setCond c).cond = c := rfl
@[simp] theorem State.setCond_running (s : State) (c : Word) : (s.setCond c).running = s.running := rfl
@[simp] theorem State.setCond_inQueue (s : State) (c : Word) : (s.setCond c).inQueue = s.inQueue := rfl
@[simp] theorem State.setCond_trace (s : State) (c : Word) : (s.setCond c).trace = s.trace := rfl
@[simp] theorem State.setCond_getReg (s : State) (c : Word) (r' : Reg) :
    (s.setCond c).getReg r' = s.getReg r' := rfl

/-! `State.setRunning` -/

@[simp] theorem State.setRunning_mem (s : State) (b : Bool) : (s.setRunning b).mem = s.mem := rfl
@[simp] theorem State.setRunning_regs (s : State) (b : Bool) : (s.setRunning b).regs = s.regs := rfl
@[simp] theorem State.setRunning_pc (s : State) (b : Bool) : (s.setRunning b).pc = s.pc := rfl
@[simp] theorem State.setRunning_cond (s : State) (b : Bool) : (s.setRunning b).cond = s.cond := rfl
@[simp] theorem State.setRunning_running (s : State) (b : Bool) : (s.setRunning b).running = b := rfl
@[simp] theorem State.setRunning_inQueue (s : State) (b : Bool) : (s.setRunning b).inQueue = s.inQueue := rfl
@[simp] theorem State.setRunning_trace (s : State) (b : Bool) : (s.setRunning b).trace = s.trace := rfl
@[simp] theorem State.setRunning_getReg (s : State) (b : Bool) (r' : Reg) :
    (s.setRunning b).getReg r' = s.getReg r' := rfl

/-! `State.setMem` -/

@[simp] theorem State.setMem_mem (s : State) (m : Memory) : (s.setMem m).mem = m := rfl
@[simp] theorem State.setMem_regs (s : State) (m : Memory) : (s.setMem m).regs = s.regs := rfl
@[simp] theorem State.setMem_pc (s : State) (m : Memory) : (s.setMem m).pc = s.pc := rfl
@[simp] theorem State.setMem_cond (s : State) (m : Memory) : (s.setMem m).cond = s.cond := rfl
@[simp] theorem State.setMem_running (s : State) (m : Memory) : (s.setMem m).running = s.running := rfl
@[simp] theorem State.setMem_inQueue (s : State) (m : Memory) : (s.setMem m).inQueue = s.inQueue := rfl
@[simp] theorem State.setMem_trace (s : State) (m : Memory) : (s.setMem m).trace = s.trace := rfl
@[simp] theorem State.setMem_getReg (s : State) (m : Memory) (r' : Reg) :
    (s.setMem m).getReg r' = s.getReg r' := rfl

/-! `State.setInQueue` -/

@[simp] theorem State.setInQueue_mem (s : State) (q : List Byte) : (s.setInQueue q).mem = s.mem := rfl
@[simp] theorem State.setInQueue_regs (s : State) (q : List Byte) : (s.setInQueue q).regs = s.regs := rfl
@[simp] theorem State.setInQueue_pc (s : State) (q : List Byte) : (s.setInQueue q).pc = s.pc := rfl
@[simp] theorem State.setInQueue_cond (s : State) (q : List Byte) : (s.setInQueue q).cond = s.cond := rfl
@[simp] theorem State.setInQueue_running (s : State) (q : List Byte) : (s.setInQueue q).running = s.running := rfl
@[simp] theorem State.setInQueue_inQueue (s : State) (q : List Byte) : (s.setInQueue q).inQueue = q := rfl
@[simp] theorem State.setInQueue_trace (s : State) (q : List Byte) : (s.setInQueue q).trace = s.trace := rfl
@[simp] theorem State.setInQueue_getReg (s : State) (q : List Byte) (r' : Reg) :
    (s.setInQueue q).getReg r' = s.getReg r' := rfl

/-! `State.emit` -/

@[simp] theorem State.emit_mem (s : State) (evs : List OutEvent) : (s.emit evs).mem = s.mem := rfl
@[simp] theorem State.emit_regs (s : State) (evs : List OutEvent) : (s.emit evs).regs = s.regs := rfl
@[simp] theorem State.emit_pc (s : State) (evs : List OutEvent) : (s.emit evs).pc = s.pc := rfl
@[simp] theorem State.emit_cond (s : State) (evs : List OutEvent) : (s.emit evs).cond = s.cond := rfl
@[simp] theorem State.emit_running (s : State) (evs : List OutEvent) : (s.emit evs).running = s.running := rfl
@[simp] theorem State.emit_inQueue (s : State) (evs : List OutEvent) : (s.emit evs).inQueue = s.inQueue := rfl
@[simp] theorem State.emit_trace (s : State) (evs : List OutEvent) : (s.emit evs).trace = s.trace ++ evs := rfl
@[simp] theorem State.emit_getReg (s : State) (evs : List OutEvent) (r' : Reg) :
    (s.emit evs).getReg r' = s.getReg r' := rfl

/-! The register file -/

theorem Regs.get_set (g : Regs) (r r' : Reg) (v : Word) :
    (g.set r v).get r' = if r' = r then v else g.get r' := by
  cases r <;> cases r' <;> rfl

@[simp] theorem State.getReg_setReg (s : State) (r r' : Reg) (v : Word) :
    (s.setReg r v).getReg r' = if r' = r then v else s.getReg r' :=
  Regs.get_set s.regs r r' v

theorem State.getReg_setReg_same (s : State) (r : Reg) (v : Word) :
    (s.setReg r v).getReg r = v := by simp

theorem State.getReg_setReg_ne (s : State) {r r' : Reg} (v : Word) (h : r' ≠ r) :
    (s.setReg r v).getReg r' = s.getReg r' := by simp [h]

/-- Two register files that read alike are equal. -/
theorem Regs.ext_get {g h : Regs} (e : ∀ r, g.get r = h.get r) : g = h := by
  cases g; cases h
  have e0 := e .r0; have e1 := e .r1; have e2 := e .r2; have e3 := e .r3
  have e4 := e .r4; have e5 := e .r5; have e6 := e .r6; have e7 := e .r7
  simp only [Regs.get] at e0 e1 e2 e3 e4 e5 e6 e7
  subst e0 e1 e2 e3 e4 e5 e6 e7; rfl

end Sys2Proof.Machine
end

