-- ==== Sys2Proof/Laws/Ops.lean ====
section
/-! SUPPORT. For each shared operation, what it can do, said once: the provers cite these instead of
unfolding the operation. -/

namespace Sys2Proof.Machine

/-! ## Stores and peeks -/

@[simp] theorem memWrite_regs (s : State) (a v : Word) : (memWrite s a v).regs = s.regs := rfl
@[simp] theorem memWrite_pc (s : State) (a v : Word) : (memWrite s a v).pc = s.pc := rfl
@[simp] theorem memWrite_cond (s : State) (a v : Word) : (memWrite s a v).cond = s.cond := rfl
@[simp] theorem memWrite_running (s : State) (a v : Word) :
    (memWrite s a v).running = s.running := rfl
@[simp] theorem memWrite_inQueue (s : State) (a v : Word) :
    (memWrite s a v).inQueue = s.inQueue := rfl
@[simp] theorem memWrite_trace (s : State) (a v : Word) : (memWrite s a v).trace = s.trace := rfl
@[simp] theorem memWrite_mem (s : State) (a v : Word) :
    (memWrite s a v).mem = s.mem.writeWord a v := rfl
@[simp] theorem memWrite_getReg (s : State) (a v : Word) (r : Reg) :
    (memWrite s a v).getReg r = s.getReg r := rfl

theorem memPeek_memWrite (s : State) (a b v : Word) :
    memPeek (memWrite s a v) b = if b = a then v else memPeek s b :=
  Memory.readWord_writeWord s.mem a b v

/-- Equal memories peek alike. -/
theorem memPeek_congr {s t : State} (h : s.mem = t.mem) (a : Word) : memPeek s a = memPeek t a := by
  simp only [memPeek, h]

/-- Memories with the same bytes peek alike. -/
theorem memPeek_of_bytes {s t : State} (h : ∀ k, t.mem.readByte k = s.mem.readByte k) (a : Word) :
    memPeek t a = memPeek s a := by
  simp only [memPeek, Memory.readWord, h]

/-! ## The input port -/

theorem keyRead_nil {s : State} (h : s.inQueue = []) : keyRead s = none := by
  simp only [keyRead, h]

theorem keyRead_cons {s : State} {c : Byte} {q : List Byte} (h : s.inQueue = c :: q) :
    keyRead s = some (c, s.setInQueue q) := by
  simp only [keyRead, h]

theorem keyReadEcho_nil {s : State} (h : s.inQueue = []) : keyReadEcho s = none := by
  simp only [keyReadEcho, keyRead_nil h]

theorem keyReadEcho_cons {s : State} {c : Byte} {q : List Byte} (h : s.inQueue = c :: q) :
    keyReadEcho s = some (c, conOut (s.setInQueue q) c) := by
  simp only [keyReadEcho, keyRead_cons h]

/-! ## The keyboard shim -/

theorem keyboardPollAndLatch_nil {s : State} (h : s.inQueue = []) :
    keyboardPollAndLatch s = memWrite s Config.kbsrAddr Config.kbsrIdle := by
  simp only [keyboardPollAndLatch, keyRead_nil h]

theorem keyboardPollAndLatch_cons {s : State} {c : Byte} {q : List Byte} (h : s.inQueue = c :: q) :
    keyboardPollAndLatch s =
      memWrite (memWrite (s.setInQueue q) Config.kbsrAddr Config.kbsrReady) Config.kbdrAddr
        (zextByte c) := by
  simp only [keyboardPollAndLatch, keyRead_cons h]

theorem memRead_of_ne {s : State} {a : Word} (h : a ≠ Config.kbsrAddr) :
    memRead s a = (memPeek s a, s) := if_neg h

theorem kbdrAddr_ne_kbsrAddr : Config.kbdrAddr ≠ Config.kbsrAddr := by decide

/-- Everything `MemRead` can do: a plain read, a poll that finds no keystroke, or a poll that latches
one. -/
theorem memRead_cases (s : State) (a : Word) :
    (a ≠ Config.kbsrAddr ∧ memRead s a = (memPeek s a, s)) ∨
    (a = Config.kbsrAddr ∧ s.inQueue = [] ∧
      memRead s a = (Config.kbsrIdle, memWrite s Config.kbsrAddr Config.kbsrIdle)) ∨
    (∃ c q, a = Config.kbsrAddr ∧ s.inQueue = c :: q ∧
      memRead s a = (Config.kbsrReady,
        memWrite (memWrite (s.setInQueue q) Config.kbsrAddr Config.kbsrReady) Config.kbdrAddr
          (zextByte c))) := by
  by_cases h : a = Config.kbsrAddr
  · subst h
    cases hq : s.inQueue with
    | nil =>
      right; left
      refine ⟨rfl, rfl, ?_⟩
      rw [memRead, if_pos rfl, keyboardPollAndLatch_nil hq, memPeek_memWrite, if_pos rfl]
    | cons c q =>
      right; right
      refine ⟨c, q, rfl, rfl, ?_⟩
      rw [memRead, if_pos rfl, keyboardPollAndLatch_cons hq, memPeek_memWrite,
        if_neg kbdrAddr_ne_kbsrAddr.symm, memPeek_memWrite, if_pos rfl]
  · exact .inl ⟨h, memRead_of_ne h⟩

@[simp] theorem memRead_regs (s : State) (a : Word) : (memRead s a).2.regs = s.regs := by
  rcases memRead_cases s a with ⟨_, e⟩ | ⟨_, _, e⟩ | ⟨_, _, _, _, e⟩ <;> rw [e] <;> rfl

@[simp] theorem memRead_pc (s : State) (a : Word) : (memRead s a).2.pc = s.pc := by
  rcases memRead_cases s a with ⟨_, e⟩ | ⟨_, _, e⟩ | ⟨_, _, _, _, e⟩ <;> rw [e] <;> rfl

@[simp] theorem memRead_cond (s : State) (a : Word) : (memRead s a).2.cond = s.cond := by
  rcases memRead_cases s a with ⟨_, e⟩ | ⟨_, _, e⟩ | ⟨_, _, _, _, e⟩ <;> rw [e] <;> rfl

@[simp] theorem memRead_running (s : State) (a : Word) :
    (memRead s a).2.running = s.running := by
  rcases memRead_cases s a with ⟨_, e⟩ | ⟨_, _, e⟩ | ⟨_, _, _, _, e⟩ <;> rw [e] <;> rfl

@[simp] theorem memRead_trace (s : State) (a : Word) : (memRead s a).2.trace = s.trace := by
  rcases memRead_cases s a with ⟨_, e⟩ | ⟨_, _, e⟩ | ⟨_, _, _, _, e⟩ <;> rw [e] <;> rfl

@[simp] theorem memRead_getReg (s : State) (a : Word) (r : Reg) :
    (memRead s a).2.getReg r = s.getReg r := by
  simp only [State.getReg, memRead_regs]

/-- A store keeps the canonical form of memory. -/
theorem memWrite_wf {s : State} (a v : Word) (h : s.mem.wf = true) :
    (memWrite s a v).mem.wf = true := Memory.wf_writeWord a v h

/-- `MemRead` keeps the canonical form of memory. -/
theorem memRead_wf {s : State} (a : Word) (h : s.mem.wf = true) :
    (memRead s a).2.mem.wf = true := by
  rcases memRead_cases s a with ⟨_, e⟩ | ⟨_, _, e⟩ | ⟨_, _, _, _, e⟩ <;> rw [e]
  · exact h
  · exact memWrite_wf Config.kbsrAddr Config.kbsrIdle h
  · exact memWrite_wf _ _ (memWrite_wf (s := s.setInQueue _) _ _ h)

/-! ## The flags -/

/-- Everything `writeDest` does. -/
theorem writeDest_eq (s : State) (dr : Reg) (v : Word) :
    writeDest s dr v = (s.setReg dr v).setCond (classify v) := by
  simp [writeDest, setcc]

@[simp] theorem writeDest_mem (s : State) (dr : Reg) (v : Word) :
    (writeDest s dr v).mem = s.mem := rfl
@[simp] theorem writeDest_pc (s : State) (dr : Reg) (v : Word) : (writeDest s dr v).pc = s.pc := rfl
@[simp] theorem writeDest_running (s : State) (dr : Reg) (v : Word) :
    (writeDest s dr v).running = s.running := rfl
@[simp] theorem writeDest_inQueue (s : State) (dr : Reg) (v : Word) :
    (writeDest s dr v).inQueue = s.inQueue := rfl
@[simp] theorem writeDest_trace (s : State) (dr : Reg) (v : Word) :
    (writeDest s dr v).trace = s.trace := rfl
@[simp] theorem writeDest_cond (s : State) (dr : Reg) (v : Word) :
    (writeDest s dr v).cond = classify v := by simp [writeDest_eq]
@[simp] theorem writeDest_getReg (s : State) (dr r : Reg) (v : Word) :
    (writeDest s dr v).getReg r = if r = dr then v else s.getReg r := by
  simp [writeDest_eq]

/-- `classify` answers one of the three codes. -/
theorem classify_cases (v : Word) :
    (v = 0 ∧ classify v = Config.flZro) ∨
    (v ≠ 0 ∧ v.getLsbD 15 = true ∧ classify v = Config.flNeg) ∨
    (v ≠ 0 ∧ v.getLsbD 15 = false ∧ classify v = Config.flPos) := by
  simp only [classify]
  by_cases h : v = 0
  · simp [h]
  · cases hb : v.getLsbD 15 <;> simp_all

/-! ## The scans, one word at a time -/

theorem scanPuts_stop {m : Memory} {fuel : Nat} {a : Word} (h : m.readWord a = 0) :
    scanPuts m (fuel + 1) a = some [] := by
  simp only [scanPuts, h, if_true]

theorem scanPuts_step {m : Memory} {fuel : Nat} {a : Word} (h : m.readWord a ≠ 0) :
    scanPuts m (fuel + 1) a =
      (scanPuts m fuel (a + 1)).map (lowByte (m.readWord a) :: ·) := by
  rw [scanPuts, if_neg h]

theorem scanPutsp_stop_low {m : Memory} {fuel : Nat} {a : Word}
    (h : lowByte (m.readWord a) = 0) : scanPutsp m (fuel + 1) a = some [] := by
  rw [scanPutsp, if_pos h]

theorem scanPutsp_stop_high {m : Memory} {fuel : Nat} {a : Word}
    (hl : lowByte (m.readWord a) ≠ 0) (hh : highByte (m.readWord a) = 0) :
    scanPutsp m (fuel + 1) a = some [lowByte (m.readWord a)] := by
  rw [scanPutsp, if_neg hl, if_pos hh]

theorem scanPutsp_step {m : Memory} {fuel : Nat} {a : Word}
    (hl : lowByte (m.readWord a) ≠ 0) (hh : highByte (m.readWord a) ≠ 0) :
    scanPutsp m (fuel + 1) a = (scanPutsp m fuel (a + 1)).map
      (lowByte (m.readWord a) :: highByte (m.readWord a) :: ·) := by
  rw [scanPutsp, if_neg hl, if_neg hh]

/-- Everything `writeScanned` can do. -/
theorem writeScanned_cases (s : State) (o : Option (List Byte)) :
    (∃ bs, o = some bs ∧
      writeScanned s o = .next (s.emit (bs.map OutEvent.conOut ++ [.conFlush]))) ∨
    (o = none ∧ writeScanned s o = .fault .unterminatedScan) := by
  cases o with
  | none => exact .inr ⟨rfl, rfl⟩
  | some bs =>
    refine .inl ⟨bs, rfl, ?_⟩
    simp [writeScanned, conFlush, conOutAll, State.emit]

/-! ## Loading -/

/-- Loading words keeps the canonical form. -/
theorem loadWords_wf (ws : List Word) :
    ∀ (m : Memory) (a : Word), m.wf = true → (loadWords m a ws).wf = true := by
  induction ws with
  | nil => intro m a h; exact h
  | cons w ws ih => intro m a h; exact ih _ _ (Memory.wf_writeWord a w h)

/-- Loading an image keeps the canonical form. -/
theorem loadImage_wf {f : ImageFile} {s t : State} (h : s.mem.wf = true)
    (e : loadImage f s = .next t) : t.mem.wf = true := by
  unfold loadImage at e
  split at e
  · cases e
  · split at e
    · cases e; exact loadWords_wf _ _ _ h
    · cases e
  · cases e; exact h

/-- Memory is canonical after reset. -/
theorem State.reset_wf : State.reset.mem.wf = true := rfl

end Sys2Proof.Machine
end

