-- ==== Sys2Proof/Laws/Boot.lean ====
section
/-! SUPPORT. Laws of the image load: the words of a byte list, and what memory reads as after words have
been stored at consecutive addresses. -/

namespace Sys2Proof.Machine

/-- The value of a word made of two bytes. -/
theorem toNat_wordOfBytes (hi lo : Byte) :
    (wordOfBytes hi lo).toNat = hi.toNat * 256 + lo.toNat := by
  have h := Nat.two_pow_add_eq_or_of_lt (i := 8) (b := lo.toNat) (by omega) hi.toNat
  have e : (wordOfBytes hi lo).toNat = hi.toNat <<< 8 ||| lo.toNat := BitVec.toNat_append _ _
  rw [e, Nat.shiftLeft_eq, Nat.mul_comm, ← h]

/-- A trailing odd byte makes no word. -/
theorem length_wordsOfBytes : ∀ bs : List Byte, (wordsOfBytes bs).length = bs.length / 2
  | [] => rfl
  | [_] => by simp [wordsOfBytes]
  | _ :: _ :: rest => by simp [wordsOfBytes, length_wordsOfBytes rest]; omega

/-- The word at position `k`, high byte first. -/
theorem getElem_wordsOfBytes : ∀ (bs : List Byte) (k : Nat) (h : 2 * k + 1 < bs.length),
    (wordsOfBytes bs)[k]'(by rw [length_wordsOfBytes]; omega) = wordOfBytes bs[2 * k] bs[2 * k + 1]
  | [], k, h => by simp at h
  | [_], k, h => by simp at h
  | _ :: _ :: _, 0, _ => rfl
  | _ :: _ :: rest, k + 1, h => by
    have ih := getElem_wordsOfBytes rest k (by simp at h; omega)
    simp only [wordsOfBytes, List.getElem_cons_succ, ih]; rfl

/-- Reading after a load that fits: the loaded word inside the range, the old one outside it. -/
theorem readWord_loadWords : ∀ (ws : List Word) (m : Memory) (o a : Word),
    o.toNat + ws.length ≤ 65536 →
    (loadWords m o ws).readWord a =
      if h : o.toNat ≤ a.toNat ∧ a.toNat < o.toNat + ws.length then ws[a.toNat - o.toNat]
      else m.readWord a
  | [], m, o, a, h => by rw [dif_neg (by simp)]; rfl
  | w :: ws, m, o, a, h => by
    simp only [List.length_cons] at h
    simp only [loadWords]
    by_cases hl : ws = []
    · subst hl
      simp only [loadWords, Memory.readWord_writeWord]
      by_cases ha : a = o
      · subst ha; simp
      · rw [if_neg ha, dif_neg]
        simp only [List.length_cons, List.length_nil]
        intro hh
        exact ha (BitVec.eq_of_toNat_eq (by omega))
    · have hpos : 0 < ws.length := List.length_pos_iff.mpr hl
      have ho : (o + 1).toNat = o.toNat + 1 := by simp [BitVec.toNat_add]; omega
      rw [readWord_loadWords ws _ (o + 1) a (by omega)]
      by_cases ha : a = o
      · subst ha
        rw [dif_neg (by omega), dif_pos (by simp)]
        simp [Memory.readWord_writeWord]
      · have hne : a.toNat ≠ o.toNat := fun e => ha (BitVec.eq_of_toNat_eq e)
        by_cases hh : o.toNat + 1 ≤ a.toNat ∧ a.toNat < o.toNat + 1 + ws.length
        · rw [dif_pos (by omega), dif_pos (by simp; omega)]
          simp only [ho]
          rw [List.getElem_cons, dif_neg (by omega)]
          congr 1
        · rw [dif_neg (by omega), dif_neg (by simp; omega), Memory.readWord_writeWord, if_neg ha]

end Sys2Proof.Machine
end

