-- ==== Sys2Proof/Laws/PerInstr.lean ====
section
/-! SUPPORT. The family `RowOf` of LAWS.json: facts about every instruction as syntax. Its row is a row
of R47's table, the bits R61 ignores take no part in selecting that row, and what an assembler emits
there are ignored bits. -/

namespace Sys2Proof.Laws.RowOf

/-- The family's statement about one instruction. -/
def Statement (i : Instr) : Prop :=
  i.row ∈ opcodeRows ∧ i.ignoredBits &&& i.row.mask = 0 ∧
    i.conventionalIgnored &&& ~~~i.ignoredBits = 0

theorem br (nzp : BitVec 3) (off : BitVec 9) : Statement (.br nzp off) := by
  simp only [Statement, Instr.row, Instr.ignoredBits, Instr.conventionalIgnored]; decide

theorem addReg (dr sr1 sr2 : Reg) : Statement (.addReg dr sr1 sr2) := by
  simp only [Statement, Instr.row, Instr.ignoredBits, Instr.conventionalIgnored]; decide

theorem addImm (dr sr1 : Reg) (imm : BitVec 5) : Statement (.addImm dr sr1 imm) := by
  simp only [Statement, Instr.row, Instr.ignoredBits, Instr.conventionalIgnored]; decide

theorem ld (dr : Reg) (off : BitVec 9) : Statement (.ld dr off) := by
  simp only [Statement, Instr.row, Instr.ignoredBits, Instr.conventionalIgnored]; decide

theorem st (sr : Reg) (off : BitVec 9) : Statement (.st sr off) := by
  simp only [Statement, Instr.row, Instr.ignoredBits, Instr.conventionalIgnored]; decide

theorem jsrr (base : Reg) : Statement (.jsrr base) := by
  simp only [Statement, Instr.row, Instr.ignoredBits, Instr.conventionalIgnored]; decide

theorem jsr (off : BitVec 11) : Statement (.jsr off) := by
  simp only [Statement, Instr.row, Instr.ignoredBits, Instr.conventionalIgnored]; decide

theorem andReg (dr sr1 sr2 : Reg) : Statement (.andReg dr sr1 sr2) := by
  simp only [Statement, Instr.row, Instr.ignoredBits, Instr.conventionalIgnored]; decide

theorem andImm (dr sr1 : Reg) (imm : BitVec 5) : Statement (.andImm dr sr1 imm) := by
  simp only [Statement, Instr.row, Instr.ignoredBits, Instr.conventionalIgnored]; decide

theorem ldr (dr base : Reg) (off : BitVec 6) : Statement (.ldr dr base off) := by
  simp only [Statement, Instr.row, Instr.ignoredBits, Instr.conventionalIgnored]; decide

theorem str (sr base : Reg) (off : BitVec 6) : Statement (.str sr base off) := by
  simp only [Statement, Instr.row, Instr.ignoredBits, Instr.conventionalIgnored]; decide

theorem rti : Statement (.rti) := by
  simp only [Statement, Instr.row, Instr.ignoredBits, Instr.conventionalIgnored]; decide

theorem not (dr sr : Reg) : Statement (.not dr sr) := by
  simp only [Statement, Instr.row, Instr.ignoredBits, Instr.conventionalIgnored]; decide

theorem ldi (dr : Reg) (off : BitVec 9) : Statement (.ldi dr off) := by
  simp only [Statement, Instr.row, Instr.ignoredBits, Instr.conventionalIgnored]; decide

theorem sti (sr : Reg) (off : BitVec 9) : Statement (.sti sr off) := by
  simp only [Statement, Instr.row, Instr.ignoredBits, Instr.conventionalIgnored]; decide

theorem jmp (base : Reg) : Statement (.jmp base) := by
  simp only [Statement, Instr.row, Instr.ignoredBits, Instr.conventionalIgnored]; decide

theorem res : Statement (.res) := by
  simp only [Statement, Instr.row, Instr.ignoredBits, Instr.conventionalIgnored]; decide

theorem lea (dr : Reg) (off : BitVec 9) : Statement (.lea dr off) := by
  simp only [Statement, Instr.row, Instr.ignoredBits, Instr.conventionalIgnored]; decide

theorem getc : Statement (.getc) := by
  simp only [Statement, Instr.row, Instr.ignoredBits, Instr.conventionalIgnored]; decide

theorem out : Statement (.out) := by
  simp only [Statement, Instr.row, Instr.ignoredBits, Instr.conventionalIgnored]; decide

theorem puts : Statement (.puts) := by
  simp only [Statement, Instr.row, Instr.ignoredBits, Instr.conventionalIgnored]; decide

theorem inp : Statement (.inp) := by
  simp only [Statement, Instr.row, Instr.ignoredBits, Instr.conventionalIgnored]; decide

theorem putsp : Statement (.putsp) := by
  simp only [Statement, Instr.row, Instr.ignoredBits, Instr.conventionalIgnored]; decide

theorem halt : Statement (.halt) := by
  simp only [Statement, Instr.row, Instr.ignoredBits, Instr.conventionalIgnored]; decide

theorem trap (vec : Byte) : Statement (.trap vec) := by
  simp only [Statement, Instr.row, Instr.ignoredBits, Instr.conventionalIgnored]; decide

end Sys2Proof.Laws.RowOf
end

