-- ==== Sys2Proof/Laws/Services.lean ====
section
/-! SUPPORT. What each trap service does when it answers a next state, and the cases of the
dispatcher. -/

namespace Sys2Proof.Machine

/-- GETC with a next state took the head of the queue. -/
theorem serviceGetc_next {s t : State} (h : serviceGetc s = .next t) :
    ∃ c q, s.inQueue = c :: q ∧ t = (s.setInQueue q).setReg .r0 (zextByte c) := by
  cases hq : s.inQueue with
  | nil => simp only [serviceGetc, keyRead_nil hq] at h; cases h
  | cons c q =>
    simp only [serviceGetc, keyRead_cons hq] at h
    injection h with h
    exact ⟨c, q, rfl, h.symm⟩

/-- IN with a next state took the head of the queue and wrote the prompt and the echo. -/
theorem serviceIn_next {s t : State} (h : serviceIn s = .next t) :
    ∃ c q, s.inQueue = c :: q ∧
      t = ((s.setInQueue q).emit (Config.inPrompt.map .conOut ++ [.conOut c])).setReg .r0
        (zextByte c) := by
  cases hq : s.inQueue with
  | nil =>
    simp only [serviceIn, keyReadEcho_nil (s := conOutAll s Config.inPrompt) hq] at h; cases h
  | cons c q =>
    simp only [serviceIn, keyReadEcho_cons (s := conOutAll s Config.inPrompt) hq] at h
    injection h with h
    refine ⟨c, q, rfl, h.symm.trans ?_⟩
    simp [conOutAll, conOut, State.emit, State.setInQueue]

/-- OUT, as one trace update. -/
theorem serviceOut_eq (s : State) :
    serviceOut s = .next (s.emit [.conOut (lowByte (s.getReg .r0)), .conFlush]) := by
  simp [serviceOut, conOut, conFlush, State.emit]

/-- PUTS with a next state wrote the scanned bytes and flushed. -/
theorem servicePuts_next {s t : State} (h : servicePuts s = .next t) :
    ∃ bs, scanPuts s.mem Config.memWords (s.getReg .r0) = some bs ∧
      t = s.emit (bs.map .conOut ++ [.conFlush]) := by
  rcases writeScanned_cases s (scanPuts s.mem Config.memWords (s.getReg .r0)) with
    ⟨bs, hb, e⟩ | ⟨_, e⟩
  · exact ⟨bs, hb, by injection e.symm.trans h with h; exact h.symm⟩
  · cases e.symm.trans h

/-- PUTSP with a next state wrote the scanned bytes and flushed. -/
theorem servicePutsp_next {s t : State} (h : servicePutsp s = .next t) :
    ∃ bs, scanPutsp s.mem Config.memWords (s.getReg .r0) = some bs ∧
      t = s.emit (bs.map .conOut ++ [.conFlush]) := by
  rcases writeScanned_cases s (scanPutsp s.mem Config.memWords (s.getReg .r0)) with
    ⟨bs, hb, e⟩ | ⟨_, e⟩
  · exact ⟨bs, hb, by injection e.symm.trans h with h; exact h.symm⟩
  · cases e.symm.trans h

/-- The dispatcher runs one of the six services or does nothing. -/
theorem trapDispatch_cases (v : Byte) (s : State) :
    trapDispatch v s = serviceGetc s ∨ trapDispatch v s = serviceOut s ∨
    trapDispatch v s = servicePuts s ∨ trapDispatch v s = serviceIn s ∨
    trapDispatch v s = servicePutsp s ∨ trapDispatch v s = serviceHalt s ∨
    trapDispatch v s = .next s := by
  unfold trapDispatch
  split
  · exact .inl rfl
  split
  · exact .inr (.inl rfl)
  split
  · exact .inr (.inr (.inl rfl))
  split
  · exact .inr (.inr (.inr (.inl rfl)))
  split
  · exact .inr (.inr (.inr (.inr (.inl rfl))))
  split
  · exact .inr (.inr (.inr (.inr (.inr (.inl rfl)))))
  · exact .inr (.inr (.inr (.inr (.inr (.inr rfl)))))

/-- A vector without a service does nothing. -/
theorem trapDispatch_of_not_service {v : Byte} (h : serviceVectors.contains v = false) (s : State) :
    trapDispatch v s = .next s := by
  simp [serviceVectors] at h
  simp [trapDispatch, h]

/-- A well-formed TRAP term carries a vector without a service. -/
theorem not_mem_serviceVectors_of_wellFormed {v : Byte} (h : (Instr.trap v).WellFormed) :
    serviceVectors.contains v = false := by
  simpa [Instr.WellFormed, Instr.wellFormed] using h

end Sys2Proof.Machine
end

