-- ==== Sys2Proof/Laws/Step.lean ====
section
/-! SUPPORT. What the fetch and the step do, said once. -/

namespace Sys2Proof.Machine

@[simp] theorem fetch_word (s : State) : (fetch s).1 = (memRead s s.pc).1 := rfl
@[simp] theorem fetch_regs (s : State) : (fetch s).2.regs = s.regs := by simp [fetch]
@[simp] theorem fetch_pc (s : State) : (fetch s).2.pc = s.pc + 1 := rfl
@[simp] theorem fetch_cond (s : State) : (fetch s).2.cond = s.cond := by simp [fetch]
@[simp] theorem fetch_running (s : State) : (fetch s).2.running = s.running := by simp [fetch]
@[simp] theorem fetch_trace (s : State) : (fetch s).2.trace = s.trace := by simp [fetch]
@[simp] theorem fetch_mem (s : State) : (fetch s).2.mem = (memRead s s.pc).2.mem := rfl
@[simp] theorem fetch_inQueue (s : State) :
    (fetch s).2.inQueue = (memRead s s.pc).2.inQueue := rfl
@[simp] theorem fetch_getReg (s : State) (r : Reg) : (fetch s).2.getReg r = s.getReg r := by
  simp [State.getReg]

/-- A running machine fetches and executes. -/
theorem step_running {s : State} (h : s.running = true) :
    step s = exec (decode (fetch s).1) (fetch s).2 := by
  simp only [step, h, if_true]

/-- A halted machine has no step. -/
theorem step_halted {s : State} (h : s.running = false) : step s = .fault .halted := by
  simp [step, h]

/-- A step with a next state is one of a running machine. -/
theorem running_of_step {s t : State} (h : step s = .next t) : s.running = true := by
  cases hr : s.running with
  | true => rfl
  | false => rw [step_halted hr] at h; cases h

/-- A fetch at the status address yields one of the two status words. -/
theorem fetch_at_kbsr {s : State} (h : s.pc = Config.kbsrAddr) :
    (fetch s).1 = Config.kbsrIdle ∨ (fetch s).1 = Config.kbsrReady := by
  rw [fetch_word]
  rcases memRead_cases s s.pc with ⟨h', _⟩ | ⟨_, _, e⟩ | ⟨_, _, _, _, e⟩
  · exact absurd h h'
  · rw [e]; exact .inl rfl
  · rw [e]; exact .inr rfl

/-- A fetch anywhere else reads the stored word and only advances PC. -/
theorem fetch_of_ne {s : State} (h : s.pc ≠ Config.kbsrAddr) :
    fetch s = (memPeek s s.pc, s.setPc (s.pc + 1)) := by
  simp only [fetch, memRead_of_ne h]

/-- The events of a run, one after another. -/
theorem runEvents_cons_next {e : RunEvent} {es : List RunEvent} {s t : State}
    (h : runEvents (e :: es) s = .next t) :
    ∃ u, applyEvent e s = .next u ∧ runEvents es u = .next t := by
  simp only [runEvents] at h
  split at h
  · exact ⟨_, ‹_›, h⟩
  · cases h
  · cases h

end Sys2Proof.Machine
end

