-- ==== Sys2Proof/Tests/Slice0.lean ====
section
/-! SUPPORT. The model's own tests: the ill-formed terms that WellFormed refuses, decoding, one step of
each instruction on vectors of spec/95_test_vectors.md (their names are in the comments), and for each
obligation with hypotheses a witness that meets them. -/

namespace Sys2Proof.Tests
open Sys2Proof Sys2Proof.Machine

/-! ## A small start state -/

/-- The default start state of 95_test_vectors.md with `w` at `pc`, some registers, COND, some memory
words and a queue given. -/
def start (w pc : Word) (regs : List (Reg × Word) := []) (cond : Word := Config.flZro)
    (mem : List (Word × Word) := []) (q : List Byte := []) : State :=
  let s := mem.foldl (fun s c => memWrite s c.1 c.2) (memWrite State.reset pc w)
  (((regs.foldl (fun s r => s.setReg r.1 r.2) s).setPc pc).setCond cond).setInQueue q

/-- The outcome is a next state with the given property. -/
def nextHas (o : Host.Outcome State Fault Refusal) (p : State → Bool) : Bool :=
  match o with
  | .next t => p t
  | .fault _ => false
  | .refused _ => false

/-- The outcome is the given fault. -/
def faultIs (o : Host.Outcome State Fault Refusal) (f : Fault) : Bool :=
  match o with
  | .next _ => false
  | .fault g => decide (g = f)
  | .refused _ => false

/-- The outcome is the given refusal. -/
def refusalIs (o : Host.Outcome State Fault Refusal) (f : Refusal) : Bool :=
  match o with
  | .next _ => false
  | .fault _ => false
  | .refused g => decide (g = f)

/-- The trace is the bytes and then, if asked, a flush. -/
def wrote (t : State) (bs : List Byte) (flush : Bool) : Bool :=
  decide (t.trace = bs.map .conOut ++ (if flush then [.conFlush] else []))

/-! ## WellFormed -/

/-- A generic TRAP term with the vector of a service is refused. -/
theorem test_wellFormed_refuses_service_vectors :
    ¬ (Instr.trap 0x20).WellFormed ∧ ¬ (Instr.trap 0x21).WellFormed ∧
    ¬ (Instr.trap 0x22).WellFormed ∧ ¬ (Instr.trap 0x23).WellFormed ∧
    ¬ (Instr.trap 0x24).WellFormed ∧ ¬ (Instr.trap 0x25).WellFormed := by decide

/-- The neighbours of the service vectors are accepted, and so is every other constructor. -/
theorem test_wellFormed_accepts :
    (Instr.trap 0x1F).WellFormed ∧ (Instr.trap 0x26).WellFormed ∧ Instr.halt.WellFormed ∧
    (Instr.br 0 0x1FF).WellFormed ∧ (Instr.jsr 0x400).WellFormed := by decide

/-! ## Decoding: W1 to W27 where Decode.lean has not one of them already -/

theorem test_decode_ignored_bits :
    decode 0x1019 = .addReg .r0 .r0 .r1 ∧ decode 0x47BF = .jsrr .r6 ∧ decode 0x9680 = .not .r3 .r2 ∧
    decode 0xCE8F = .jmp .r2 ∧ decode 0xFF25 = .halt ∧ decode 0x8FFF = .rti := by decide

theorem test_decode_mask_zero : decode 0x0000 = .br 0 0 := by decide

/-- An image's bytes, high byte first, and the bytes left over (R37). -/
theorem test_decodeBytes :
    decodeBytes [0x10, 0x7D, 0xF0] = .ok (.addImm .r0 .r1 0x1D, [0xF0]) ∧
    decodeBytes [0x10] = .error .truncated := by decide

theorem test_decodeTableWord :
    decodeTableWord 16 0x54C4 = some (.andReg .r2 .r3 .r4) ∧ decodeTableWord 16 0xF020 = some .getc ∧
    decodeTableWord 17 0 = none := by decide

/-- Words written out from R47 to R57 are what the encoder gives. -/
theorem test_encode :
    encode (.not .r3 .r2) = 0x96BF ∧ encode (.jmp .r7) = 0xC1C0 ∧ encode .halt = 0xF025 ∧
    encode (.str .r5 .r1 0x3F) = 0x7A7F ∧ encode (.jsr 0x7FF) = 0x4FFF := by decide

/-! ## Sign extension: E2 to E12 -/

theorem test_sext :
    sext (0b01111 : BitVec 5) = 0x000F ∧ sext (0b10000 : BitVec 5) = 0xFFF0 ∧
    sext (0b011111 : BitVec 6) = 0x001F ∧ sext (0b100000 : BitVec 6) = 0xFFE0 ∧
    sext (0b011111111 : BitVec 9) = 0x00FF ∧ sext (0b100000000 : BitVec 9) = 0xFF00 ∧
    sext (0b01111111111 : BitVec 11) = 0x03FF ∧ sext (0b10000000000 : BitVec 11) = 0xFC00 ∧
    zextByte 0xFF = 0x00FF := by decide

/-! ## ALU -/

/-- A3. -/
theorem test_addReg_signed_overflow :
    nextHas (step (start 0x1001 0x3000 [(.r0, 0x7FFF), (.r1, 0x0001)])) (fun t =>
      t.getReg .r0 = 0x8000 && t.cond = Config.flNeg && t.pc = 0x3001) = true := by decide

/-- A4. -/
theorem test_addReg_carry_discarded :
    nextHas (step (start 0x1001 0x3000 [(.r0, 0xFFFF), (.r1, 0x0001)] Config.flNeg)) (fun t =>
      t.getReg .r0 = 0 && t.cond = Config.flZro) = true := by decide

/-- A2, the document's own example. -/
theorem test_addImm_document_example :
    nextHas (step (start 0x107D 0x3000 [(.r1, 0x0005)])) (fun t =>
      t.getReg .r0 = 0x0002 && t.getReg .r1 = 0x0005 && t.cond = Config.flPos) = true := by decide

/-- A8. -/
theorem test_addImm_most_negative :
    nextHas (step (start 0x1030 0x3000 [(.r0, 0x0010)] Config.flPos)) (fun t =>
      t.getReg .r0 = 0 && t.cond = Config.flZro) = true := by decide

/-- A12. -/
theorem test_andReg :
    nextHas (step (start 0x54C4 0x3000 [(.r3, 0xF0F0), (.r4, 0x3C3C)])) (fun t =>
      t.getReg .r2 = 0x3030 && t.cond = Config.flPos) = true := by decide

/-- A17. -/
theorem test_andReg_refreshes_flags :
    nextHas (step (start 0x5241 0x3000 [(.r1, 0x8000)])) (fun t =>
      t.getReg .r1 = 0x8000 && t.cond = Config.flNeg) = true := by decide

/-- A15. -/
theorem test_andImm_sign_extends :
    nextHas (step (start 0x5030 0x3000 [(.r0, 0xABCD)])) (fun t =>
      t.getReg .r0 = 0xABC0 && t.cond = Config.flNeg) = true := by decide

/-- A16. -/
theorem test_andImm_positive_mask :
    nextHas (step (start 0x502F 0x3000 [(.r0, 0xABCD)])) (fun t =>
      t.getReg .r0 = 0x000D && t.cond = Config.flPos) = true := by decide

/-- A18. -/
theorem test_not :
    nextHas (step (start 0x96BF 0x3000 [(.r2, 0x1234)])) (fun t =>
      t.getReg .r3 = 0xEDCB && t.cond = Config.flNeg) = true := by decide

/-- A21. -/
theorem test_not_same_register :
    nextHas (step (start 0x903F 0x3000 [(.r0, 0x8000)])) (fun t =>
      t.getReg .r0 = 0x7FFF && t.cond = Config.flPos) = true := by decide

/-! ## Control transfer -/

/-- B2: the test is bitwise, so BRp is not taken on ZERO. -/
theorem test_br_bitwise :
    nextHas (step (start 0x03FD 0x3005 [] Config.flZro)) (fun t => t.pc = 0x3006) = true := by decide

/-- B14. -/
theorem test_br_wraps :
    nextHas (step (start 0x0FFE 0x0000 [] Config.flZro)) (fun t => t.pc = 0xFFFF) = true := by decide

/-- J3. -/
theorem test_jmp :
    nextHas (step (start 0xCE8F 0x3000 [(.r2, 0x1234)])) (fun t =>
      t.pc = 0x1234 && t.cond = Config.flZro) = true := by decide

/-- JS3. -/
theorem test_jsr_most_negative :
    nextHas (step (start 0x4C00 0x3000)) (fun t =>
      t.getReg .r7 = 0x3001 && t.pc = 0x2C01) = true := by decide

/-- JS5. -/
theorem test_jsr_wraps :
    nextHas (step (start 0x4800 0xFFFF)) (fun t => t.getReg .r7 = 0 && t.pc = 0) = true := by decide

/-- JS8. -/
theorem test_jsrr :
    nextHas (step (start 0x4080 0x3010 [(.r2, 0x4000)] Config.flNeg)) (fun t =>
      t.getReg .r7 = 0x3011 && t.pc = 0x4000 && t.cond = Config.flNeg) = true := by decide

/-- JS7. -/
theorem test_jsrr_through_r7 :
    nextHas (step (start 0x41C0 0x3001 [(.r7, 0x3005)])) (fun t =>
      t.getReg .r7 = 0x3002 && t.pc = 0x3002) = true := by decide

/-! ## Loads and stores -/

/-- L2. -/
theorem test_ld_own_word :
    nextHas (step (start 0x21FF 0x3000)) (fun t =>
      t.getReg .r0 = 0x21FF && t.cond = Config.flPos) = true := by decide

/-- L6. -/
theorem test_ld_wraps :
    nextHas (step (start 0x2001 0xFFFF [] Config.flZro [(0x0001, 0x0042)])) (fun t =>
      t.getReg .r0 = 0x0042 && t.pc = 0) = true := by decide

/-- L7. -/
theorem test_ldi_polls_keyboard :
    nextHas (step (start 0xA204 0x3000 [] Config.flZro [(0x3005, 0xFE00)] [0x61])) (fun t =>
      t.getReg .r1 = 0x8000 && t.cond = Config.flNeg && memPeek t 0xFE00 = 0x8000 &&
      memPeek t 0xFE02 = 0x0061 && t.inQueue = []) = true := by decide

/-- L8. -/
theorem test_ldi_no_key :
    nextHas (step (start 0xA204 0x3000 [] Config.flZro
      [(0x3005, 0xFE00), (0xFE00, 0x1234), (0xFE02, 0x0077)])) (fun t =>
      t.getReg .r1 = 0 && t.cond = Config.flZro && memPeek t 0xFE00 = 0 &&
      memPeek t 0xFE02 = 0x0077) = true := by decide

/-- L12. -/
theorem test_ldr_base_is_destination :
    nextHas (step (start 0x6241 0x3000 [(.r1, 0xFFFF)] Config.flZro [(0x0000, 0x0009)])) (fun t =>
      t.getReg .r1 = 0x0009 && t.cond = Config.flPos) = true := by decide

/-- L14. -/
theorem test_ldr_most_negative :
    nextHas (step (start 0x6060 0x3000 [(.r1, 0x4020)] Config.flZro [(0x4000, 0x0005)])) (fun t =>
      t.getReg .r0 = 0x0005) = true := by decide

/-- L19. -/
theorem test_lea_flags :
    nextHas (step (start 0xE0FF 0x7F00)) (fun t =>
      t.getReg .r0 = 0x8000 && t.cond = Config.flNeg && t.pc = 0x7F01) = true := by decide

/-- L20. -/
theorem test_lea_reads_no_device :
    nextHas (step (start 0xE000 0xFDFF [] Config.flZro [] [0x61])) (fun t =>
      t.getReg .r0 = 0xFE00 && t.inQueue = [0x61] && memPeek t 0xFE00 = 0) = true := by decide

/-- T1. -/
theorem test_st :
    nextHas (step (start 0x3609 0x3003 [(.r3, 0xEDCB)] Config.flPos)) (fun t =>
      memPeek t 0x300D = 0xEDCB && t.pc = 0x3004 && t.cond = Config.flPos) = true := by decide

/-- T10. -/
theorem test_st_to_status_is_plain :
    nextHas (step (start 0x3000 0xFDFF [(.r0, 0x0001)] Config.flZro [] [0x61])) (fun t =>
      memPeek t 0xFE00 = 0x0001 && t.inQueue = [0x61]) = true := by decide

/-- T5. -/
theorem test_sti :
    nextHas (step (start 0xB409 0x3005 [(.r2, 0x1234)] Config.flZro [(0x300F, 0x3011)])) (fun t =>
      memPeek t 0x3011 = 0x1234 && memPeek t 0x300F = 0x3011) = true := by decide

/-- T6. -/
theorem test_sti_over_its_pointer :
    nextHas (step (start 0xB000 0x3000 [(.r0, 0x5555)] Config.flZro [(0x3001, 0x3001)])) (fun t =>
      memPeek t 0x3001 = 0x5555) = true := by decide

/-- T7: the base is R1, not the register of bits 11..9. -/
theorem test_str_base :
    nextHas (step (start 0x7A7F 0x3000 [(.r1, 0x300B), (.r5, 0x1234)])) (fun t =>
      memPeek t 0x300A = 0x1234 && memPeek t 0x1233 = 0) = true := by decide

/-- T9. -/
theorem test_str_wraps :
    nextHas (step (start 0x7041 0x3000 [(.r0, 0xAAAA), (.r1, 0xFFFF)])) (fun t =>
      memPeek t 0x0000 = 0xAAAA) = true := by decide

/-! ## TRAP, RTI, RES -/

/-- X1. -/
theorem test_getc :
    nextHas (step (start 0xF020 0x3000 [(.r0, 0xFFFF)] Config.flNeg [] [0x41])) (fun t =>
      t.getReg .r0 = 0x0041 && t.cond = Config.flNeg && t.pc = 0x3001 && t.inQueue = [] &&
      t.trace = []) = true := by decide

/-- R88: the step is held while the queue is empty. -/
theorem test_getc_holds : faultIs (step (start 0xF020 0x3000)) .awaitingInput = true := by decide

/-- X3. -/
theorem test_out_low_byte :
    nextHas (step (start 0xF021 0x3000 [(.r0, 0x1241)])) (fun t => wrote t [0x41] true) = true := by
  decide

/-- X4. -/
theorem test_out_zero_byte :
    nextHas (step (start 0xF021 0x3000)) (fun t => wrote t [0x00] true) = true := by decide

/-- X7. -/
theorem test_puts_zero_word_ends :
    nextHas (step (start 0xF022 0x3000 [(.r0, 0x4000)] Config.flZro
      [(0x4000, 0x0100), (0x4001, 0x4142)])) (fun t => wrote t [0x00, 0x42] true) = true := by decide

/-- X23, with the device words as they stand there. -/
theorem test_puts_does_not_poll :
    nextHas (step (start 0xF022 0x3000 [(.r0, 0xFDFF)] Config.flZro
      [(0xFDFF, 0x0041), (0xFE00, 0x8000)] [0x62])) (fun t =>
      wrote t [0x41, 0x00] true && t.inQueue = [0x62] && memPeek t 0xFE00 = 0x8000 &&
      memPeek t 0xFE02 = 0) = true := by decide

/-- X9. -/
theorem test_in :
    nextHas (step (start 0xF023 0x3000 [] Config.flZro [] [0x7A])) (fun t =>
      wrote t ([0x45, 0x6E, 0x74, 0x65, 0x72, 0x20, 0x61, 0x20, 0x63, 0x68, 0x61, 0x72, 0x61, 0x63,
        0x74, 0x65, 0x72, 0x3A, 0x20] ++ [0x7A]) false &&
      t.getReg .r0 = 0x007A && t.cond = Config.flZro) = true := by decide

/-- R91: the step is held while the queue is empty. -/
theorem test_in_holds : faultIs (step (start 0xF023 0x3000)) .awaitingInput = true := by decide

/-- X10. -/
theorem test_putsp_high_byte_ends :
    nextHas (step (start 0xF024 0x3000 [(.r0, 0x4000)] Config.flZro
      [(0x4000, 0x6548), (0x4001, 0x6C6C), (0x4002, 0x006F), (0x4003, 0x4141)])) (fun t =>
      wrote t [0x48, 0x65, 0x6C, 0x6C, 0x6F] true) = true := by decide

/-- X12. -/
theorem test_putsp_low_byte_ends :
    nextHas (step (start 0xF024 0x3000 [(.r0, 0x4000)] Config.flZro
      [(0x4000, 0x4100), (0x4001, 0x4242)])) (fun t => wrote t [] true) = true := by decide

/-- X14. -/
theorem test_halt :
    nextHas (step (start 0xF025 0x3006)) (fun t =>
      t.running = false && t.pc = 0x3007 && t.trace = []) = true := by decide

/-- R20: no step of a halted machine. -/
theorem test_halted_machine_has_no_step :
    faultIs (step ((start 0x1001 0x3000).setRunning false)) .halted = true := by decide

/-- X16 and X19. -/
theorem test_trap_below_services :
    nextHas (step (start 0xF01F 0x3000 [(.r7, 0x1234)])) (fun t =>
      t.pc = 0x3001 && t.getReg .r7 = 0x1234 && t.trace = []) = true := by decide

/-- X17. -/
theorem test_trap_above_services :
    nextHas (step (start 0xF026 0x3000)) (fun t => t = (start 0xF026 0x3000).setPc 0x3001) = true := by
  decide

/-- X21. -/
theorem test_rti :
    nextHas (step (start 0x8FFF 0x3000)) (fun t => t = (start 0x8FFF 0x3000).setPc 0x3001) = true := by
  decide

/-- X22. -/
theorem test_res :
    nextHas (step (start 0xD123 0x3000)) (fun t => t = (start 0xD123 0x3000).setPc 0x3001) = true := by
  decide

/-! ## The keyboard, the fetch, loading, the host -/

/-- K3. -/
theorem test_fetch_from_status_with_key :
    nextHas (step ((start 0 0xFE00 [] Config.flZro [] [0x61]))) (fun t =>
      memPeek t 0xFE00 = 0x8000 && memPeek t 0xFE02 = 0x0061 && t.inQueue = [] &&
      t.pc = 0xFE01) = true := by decide

/-- K4. -/
theorem test_fetch_from_status_without_key :
    nextHas (step (start 0xF025 0xFE00)) (fun t =>
      t.running && memPeek t 0xFE00 = 0 && t.pc = 0xFE01) = true := by decide

/-- K5. -/
theorem test_data_read_is_inert :
    memRead (start 0 0x3000 [] Config.flZro [(0xFE02, 0x0061)] [0x62]) 0xFE02 =
      (0x0061, start 0 0x3000 [] Config.flZro [(0xFE02, 0x0061)] [0x62]) := by decide

/-- I1 and I5: words in big-endian order, a trailing odd byte ignored. -/
theorem test_image :
    nextHas (launch [.bytes [0x30, 0x00, 0x12, 0x34, 0xAB, 0xCD, 0x77]]) (fun t =>
      memPeek t 0x3000 = 0x1234 && memPeek t 0x3001 = 0xABCD && memPeek t 0x3002 = 0 &&
      t.pc = 0x3000 && t.running) = true := by decide

/-- I3 and I4: the last word of memory, and one past it. -/
theorem test_image_end_of_memory :
    nextHas (launch [.bytes [0xFF, 0xFF, 0x00, 0x01]]) (fun t => memPeek t 0xFFFF = 0x0001) = true ∧
    refusalIs (launch [.bytes [0xFF, 0xFF, 0x00, 0x01, 0x00, 0x02]]) .imageOverflow = true ∧
    refusalIs (launch [.unreadable]) .imageUnreadable = true := by decide

/-- I9: the later image wins. -/
theorem test_images_overlap :
    nextHas (launch [.bytes [0x30, 0x00, 0x11, 0x11, 0x22, 0x22], .bytes [0x30, 0x01, 0x33, 0x33]])
      (fun t => memPeek t 0x3000 = 0x1111 && memPeek t 0x3001 = 0x3333) = true := by decide

/-- The image of P3's first two lines and message, from its assembly. -/
theorem test_assemble :
    assemble 0x3000 [.lea .r0 0x3005, .jsr 0x3003, .trap 0x25, .instr .puts, .ret,
        .stringz [0x48, 0x49]] =
      some [0x30, 0x00, 0xE0, 0x04, 0x48, 0x01, 0xF0, 0x25, 0xF0, 0x22, 0xC1, 0xC0, 0x00, 0x48,
        0x00, 0x49, 0x00, 0x00] := by decide

/-- A key that arrives between two steps is read by the second; an abort leaves no state. -/
theorem test_host_events :
    nextHas (runEvents [.key 0x41, .cpu] (start 0xF020 0x3000)) (fun t =>
      t.getReg .r0 = 0x0041 && t.inQueue = []) = true ∧
    faultIs (runEvents [.abort] State.reset) .hostAborted = true := by decide

/-- The first instruction after reset is the one that withFetchWord places, and nothing but the word at
PC differs from reset. -/
theorem test_withFetchWord :
    nextHas (step (State.reset.withFetchWord 16 0x127F)) (fun t =>
      t.getReg .r1 = 0xFFFF && t.pc = 0x3001) = true ∧
    State.reset.withFetchWord 16 0x127F = memWrite State.reset 0x3000 0x127F := by decide

/-! ## Witnesses: for each obligation with hypotheses, inputs that meet them -/

/-- Operands at their boundaries, of every constructor with operands. -/
theorem test_witness_DecodeInvertsEncode :
    (Instr.br 7 0x100).WellFormed ∧ (Instr.addReg .r7 .r0 .r7).WellFormed ∧
    (Instr.addImm .r0 .r7 0x10).WellFormed ∧ (Instr.jsr 0x7FF).WellFormed ∧
    (Instr.str .r7 .r0 0x20).WellFormed ∧ (Instr.trap 0x00).WellFormed ∧
    (Instr.trap 0xFF).WellFormed ∧ Instr.getc.WellFormed := by decide

theorem test_witness_IgnoredBitsDoNotMatter :
    (0x1019 : Word) &&& ~~~(decode 0x1001).ignoredBits = 0x1001 &&& ~~~(decode 0x1001).ignoredBits ∧
    (0xFF25 : Word) &&& ~~~(decode 0xF025).ignoredBits = 0xF025 &&& ~~~(decode 0xF025).ignoredBits ∧
    (0x8FFF : Word) &&& ~~~(decode 0x8000).ignoredBits = 0x8000 &&& ~~~(decode 0x8000).ignoredBits :=
  by decide

theorem test_witness_EveryWordSelectsItsRow :
    (⟨"BR", 0x0000, 0xF000⟩ : OpcodeRow) ∈ opcodeRows ∧
    (⟨"TRAP", 0xF000, 0xF000⟩ : OpcodeRow) ∈ opcodeRows := by decide

theorem test_witness_SignExtensionKeepsValue :
    5 ∈ [5, 6, 9, 11] ∧ 6 ∈ [5, 6, 9, 11] ∧ 9 ∈ [5, 6, 9, 11] ∧ 11 ∈ [5, 6, 9, 11] := by decide

theorem test_witness_SetccClassifies :
    (start 0 0x3000).getReg .r0 = 0 ∧
    ((start 0 0x3000 [(.r0, 0x8000)]).getReg .r0 ≠ 0 ∧
      ((start 0 0x3000 [(.r0, 0x8000)]).getReg .r0).getLsbD 15 = true) ∧
    ((start 0 0x3000 [(.r0, 0x7FFF)]).getReg .r0 ≠ 0 ∧
      ((start 0 0x3000 [(.r0, 0x7FFF)]).getReg .r0).getLsbD 15 = false) := by decide

/-- Each clause of the branch statement: a shared bit, no shared bit, and the four COND words. -/
theorem test_witness_BranchTestsBitwise :
    (∃ k < 3, (start 0 0x3000 [] Config.flNeg).cond.getLsbD k = true ∧
      (0b100 : BitVec 3).getLsbD k = true) ∧
    (∀ k < 3, (start 0 0x3000 [] Config.flNeg).cond.getLsbD k = false ∨
      (0b011 : BitVec 3).getLsbD k = false) ∧
    (start 0 0x3000 [] Config.flZro).cond = Config.flZro ∧
    (start 0 0x3000 [] Config.flPos).cond = Config.flPos ∧ (start 0 0x3000 [] 0).cond = 0 := by decide

/-- Both address clauses, at the status address and beside it, and the clauses on who reads. -/
theorem test_witness_MemReadRoutesThroughShim :
    (0xFE00 : Word) = Config.kbsrAddr ∧ (0xFE01 : Word) ≠ Config.kbsrAddr ∧
    (0xFDFF : Word) ≠ Config.kbsrAddr ∧ State.reset.running = true ∧
    (0xFE00 : Word) = pcRel (start 0 0xFE01) (0x1FF : BitVec 9) ∧
    (0xFE00 : Word) = baseOff (start 0 0x3000 [(.r1, 0xFE01)]) .r1 (0x3F : BitVec 6) ∧
    memRead (start 0 0x3000 [] 0 [(0x3001, 0xFE00)])
      (pcRel (start 0 0x3000 [] 0 [(0x3001, 0xFE00)]) (1 : BitVec 9)) =
      (0xFE00, start 0 0x3000 [] 0 [(0x3001, 0xFE00)]) := by decide

/-- A state with no key and a state with one, and the state after the read. -/
theorem test_witness_StatusReadPollsAndLatches :
    (start 0 0x3000).inQueue = [] ∧ (start 0 0x3000 [] 0 [] [0xFF, 0x00]).inQueue = [0xFF, 0x00] ∧
    (memRead (start 0 0x3000 [] 0 [] [0xFF, 0x00]) Config.kbsrAddr).2.inQueue = [0x00] := by decide

theorem test_witness_DataReadIsInert :
    (start 0 0x3000 [] 0 [] [0xFF]).inQueue = [0xFF] ∧ (start 0 0x3000).inQueue = [] ∧
    (0xFE03 : Word) ≠ Config.kbdrAddr ∧ (0xFE00 : Word) ≠ Config.kbdrAddr := by decide

theorem test_witness_StoreIsDirect : (0xFFFF : Word) ≠ 0x0000 := by decide

/-- PC-relative addresses beside the status address. -/
theorem test_witness_LdLoadsPcRelative :
    pcRel (start 0 0xFE00) (1 : BitVec 9) ≠ Config.kbsrAddr ∧
    pcRel (start 0 0xFE00) (0x1FF : BitVec 9) ≠ Config.kbsrAddr := by decide

theorem test_witness_LdiLoadsThroughPointer :
    pcRel (start 0 0x3000 [] 0 [(0x3001, 0xFE01)]) (1 : BitVec 9) ≠ Config.kbsrAddr ∧
    memPeek (start 0 0x3000 [] 0 [(0x3001, 0xFE01)])
      (pcRel (start 0 0x3000 [] 0 [(0x3001, 0xFE01)]) (1 : BitVec 9)) ≠ Config.kbsrAddr := by decide

theorem test_witness_LdrLoadsBaseOffset :
    baseOff (start 0 0x3000 [(.r1, 0xFE00)]) .r1 (0x3F : BitVec 6) ≠ Config.kbsrAddr := by decide

theorem test_witness_StiStoresThroughPointer :
    pcRel (start 0 0xFE00) (1 : BitVec 9) ≠ Config.kbsrAddr := by decide

/-- T2's word. -/
theorem test_witness_StoredCodeRunsNext :
    (start 0x3000 0x3000).running = true ∧ decode (fetch (start 0x3000 0x3000)).1 = .st .r0 0 ∧
    (start 0x3000 0x3000).pc + 1 ≠ Config.kbsrAddr := by decide

/-- The vectors at the two ends of each range. -/
theorem test_witness_TrapDispatchesOnVector :
    ((0x1F : Byte).toNat < 0x20 ∨ 0x25 < (0x1F : Byte).toNat) ∧
    ((0x26 : Byte).toNat < 0x20 ∨ 0x25 < (0x26 : Byte).toNat) ∧
    ((0x00 : Byte).toNat < 0x20 ∨ 0x25 < (0x00 : Byte).toNat) ∧
    ((0xFF : Byte).toNat < 0x20 ∨ 0x25 < (0xFF : Byte).toNat) ∧
    ¬ ((0x20 : Byte).toNat < 0x20 ∨ 0x25 < (0x20 : Byte).toNat) ∧
    ¬ ((0x25 : Byte).toNat < 0x20 ∨ 0x25 < (0x25 : Byte).toNat) ∧
    ∃ t, exec (.trap 0x26) State.reset = .next t :=
  ⟨by decide, by decide, by decide, by decide, by decide, by decide, _, rfl⟩

theorem test_witness_GetcReadsOneKey : (start 0 0x3000 [] 0 [] [0xFF]).inQueue = [0xFF] := by decide

theorem test_witness_InputServicesHold : State.reset.inQueue = [] := by decide

/-- A string of one word, X7's neighbour; and the empty string at distance 0. -/
theorem test_witness_PutsWritesUpToZeroWord :
    (∀ k < 1, memPeek (start 0 0x3000 [(.r0, 0xFFFF)] 0 [(0xFFFF, 0x0041)])
      ((start 0 0x3000 [(.r0, 0xFFFF)] 0 [(0xFFFF, 0x0041)]).getReg .r0 + BitVec.ofNat 16 k) ≠ 0) ∧
    memPeek (start 0 0x3000 [(.r0, 0xFFFF)] 0 [(0xFFFF, 0x0041)])
      ((start 0 0x3000 [(.r0, 0xFFFF)] 0 [(0xFFFF, 0x0041)]).getReg .r0 + BitVec.ofNat 16 1) = 0 ∧
    memPeek State.reset (State.reset.getReg .r0 + BitVec.ofNat 16 0) = 0 := by decide

theorem test_witness_InPromptsReadsAndEchoes :
    (start 0 0x3000 [] 0 [] [0x7A, 0x01]).inQueue = [0x7A, 0x01] := by decide

/-- A string that ends at a high byte, across the top of memory. -/
theorem test_witness_PutspWritesUpToZeroByte :
    (∀ j < 3, packedByte (start 0 0x3000 [(.r0, 0xFFFF)] 0 [(0xFFFF, 0x4241), (0x0000, 0x0043)])
      ((start 0 0x3000 [(.r0, 0xFFFF)] 0 [(0xFFFF, 0x4241), (0x0000, 0x0043)]).getReg .r0) j ≠ 0) ∧
    packedByte (start 0 0x3000 [(.r0, 0xFFFF)] 0 [(0xFFFF, 0x4241), (0x0000, 0x0043)])
      ((start 0 0x3000 [(.r0, 0xFFFF)] 0 [(0xFFFF, 0x4241), (0x0000, 0x0043)]).getReg .r0) 3 = 0 := by
  decide

/-- A memory in which every byte is 1. -/
def full : State := State.reset.setMem ((List.range' 0 131072).map fun k => (k, 1))

theorem readByte_range' (k : Nat) : ∀ (n lo : Nat), lo ≤ k → k < lo + n →
    Memory.readByte ((List.range' lo n).map fun j => (j, (1 : Byte))) k = 1
  | 0, lo, h1, h2 => by omega
  | n + 1, lo, h1, h2 => by
    simp only [List.range'_succ, List.map_cons, Memory.readByte]
    by_cases h : lo = k
    · rw [if_pos h]
    · rw [if_neg h]; exact readByte_range' k n (lo + 1) (by omega) (by omega)

/-- No word of `full` is zero or holds a zero byte; `State.reset` is the other case. -/
theorem test_witness_ScansHangWithoutTerminator :
    (∀ a, memPeek full a = 0x0101) ∧ lowByte (0x0101 : Word) ≠ 0 ∧ highByte (0x0101 : Word) ≠ 0 ∧
    memPeek State.reset 0 = 0 := by
  refine ⟨fun a => ?_, by decide, by decide, by decide⟩
  have ha := a.isLt
  have h1 : full.mem.readByte (hiCell a) = 1 :=
    readByte_range' _ _ _ (by omega) (by simp only [hiCell]; omega)
  have h2 : full.mem.readByte (loCell a) = 1 :=
    readByte_range' _ _ _ (by omega) (by simp only [loCell]; omega)
  simp only [memPeek, Memory.readWord, h1, h2]
  decide

theorem test_witness_UndefinedVectorIsNoOp :
    (start 0xFF26 0x3000).running = true ∧
    opcodeOf (memRead (start 0xFF26 0x3000) (start 0xFF26 0x3000).pc).1 = Config.opcTrap ∧
    0x25 < (lowByte (memRead (start 0xFF26 0x3000) (start 0xFF26 0x3000).pc).1).toNat ∧
    opcodeOf (memRead (start 0xF01F 0x3000) (start 0xF01F 0x3000).pc).1 = Config.opcTrap ∧
    (lowByte (memRead (start 0xF01F 0x3000) (start 0xF01F 0x3000).pc).1).toNat < 0x20 := by decide

/-- RTI also where it is fetched from the status address with a key pending, and RES. -/
theorem test_witness_ReservedOpcodesAreNoOps :
    opcodeOf (memRead (start 0 0xFE00 [] 0 [] [0x61]) (start 0 0xFE00 [] 0 [] [0x61]).pc).1 =
      Config.opcRti ∧
    opcodeOf (memRead (start 0xD123 0x3000) (start 0xD123 0x3000).pc).1 = Config.opcRes ∧
    (start 0xD123 0x3000).running = true := by decide

theorem test_witness_StepRunsDecodedInstruction :
    (start 0x107D 0x3000).running = true ∧
    decode (memRead (start 0x107D 0x3000) (start 0x107D 0x3000).pc).1 = .addImm .r0 .r1 0x1D := by
  decide

theorem test_witness_RunningGatesTheCycle :
    State.reset.running = true ∧ (State.reset.setRunning false).running = false ∧
    ∃ t, exec .rti (State.reset.setRunning false) = .next t :=
  ⟨rfl, rfl, _, rfl⟩

/-- A held GETC and a PUTS; the memory of the third outcome is `full`, above. -/
theorem test_witness_StepOutcomesAreComplete :
    (start 0xF020 0x3000).running = true ∧ (start 0xF020 0x3000).inQueue = [] ∧
    decode (memRead (start 0xF020 0x3000) (start 0xF020 0x3000).pc).1 = .getc ∧
    (start 0xF022 0x3000).running = true := by decide

theorem test_witness_RunningFallsOnlyByHalt :
    (∃ t, step (start 0xF025 0x3000) = .next t ∧ t.running = false) ∧
    ∃ t, step (start 0x107D 0x3000) = .next t ∧ t.running = true :=
  ⟨⟨_, rfl, rfl⟩, _, rfl, rfl⟩

theorem test_witness_CondWrittenByTheSeven :
    (∃ t, exec (.lea .r0 0) State.reset = .next t) ∧ flagDest (.lea .r0 0) = some .r0 ∧
    (∃ t, exec (.jsr 0) State.reset = .next t) ∧ flagDest (.jsr 0) = none ∧
    State.reset.cond = Config.flZro :=
  ⟨⟨_, rfl⟩, rfl, ⟨_, rfl⟩, rfl, rfl⟩

theorem test_witness_RegistersWrittenByEach :
    (Instr.jsr 0).WellFormed ∧ (∃ t, exec (.jsr 0) State.reset = .next t) ∧
    writtenReg (.jsr 0) ≠ some .r0 ∧ (start 0 0x3000 [] 0 [] [0x41]).inQueue = [0x41] ∧
    (∃ t, exec (.jsrr .r7) State.reset = .next t) ∧
    ∃ t, exec .getc (start 0 0x3000 [] 0 [] [0x41]) = .next t :=
  ⟨rfl, ⟨_, rfl⟩, by decide, by decide, ⟨_, rfl⟩, _, rfl⟩

/-- PC at the top of memory, where the increment wraps. -/
theorem test_witness_PcWrittenOnlyByTransfers :
    (∃ t, exec .out State.reset = .next t) ∧ isTransfer .out = false ∧
    (∃ t, step (start 0x1001 0xFFFF) = .next t) ∧
    isTransfer (decode (memRead (start 0x1001 0xFFFF) (start 0x1001 0xFFFF).pc).1) = false :=
  ⟨⟨_, rfl⟩, rfl, ⟨_, rfl⟩, by decide⟩

/-- A store: the bytes just outside its word; and a poll: a byte outside the two device words. -/
theorem test_witness_MemoryFrameOfEveryInstruction :
    (∃ t, exec (.st .r0 0) (start 0 0x3000) = .next t) ∧
    storeAddr (start 0 0x3000) (.st .r0 0) = some 0x3000 ∧
    0x5FFF ≠ hiCell 0x3000 ∧ 0x5FFF ≠ loCell 0x3000 ∧ 0x6002 ≠ loCell 0x3000 ∧
    (∃ t, exec (.ld .r0 0) (start 0 0xFE00) = .next t) ∧
    Config.kbsrAddr ∈ readAddrs (start 0 0xFE00) (.ld .r0 0) ∧
    storeAddr (start 0 0xFE00) (.ld .r0 0) = none ∧
    0x1FC02 ≠ hiCell Config.kbsrAddr ∧ 0x1FC02 ≠ loCell Config.kbsrAddr ∧
    0x1FC02 ≠ hiCell Config.kbdrAddr ∧ 0x1FC02 ≠ loCell Config.kbdrAddr :=
  ⟨⟨_, rfl⟩, by decide, by decide, by decide, by decide, ⟨_, rfl⟩, by decide, by decide, by decide,
    by decide, by decide, by decide⟩

theorem test_witness_InputQueueOnlyShrinks :
    Instr.getc.WellFormed ∧ takesKey .getc = true ∧
    (∃ t, exec .getc (start 0 0x3000 [] 0 [] [0x41]) = .next t) ∧
    (Instr.ld .r0 0).WellFormed ∧
    ∃ t, exec (.ld .r0 0) (start 0 0xFE00 [] 0 [] [0x41]) = .next t :=
  ⟨rfl, rfl, ⟨_, rfl⟩, rfl, _, rfl⟩

theorem test_witness_TraceGrowsByOutputServices :
    Instr.out.WellFormed ∧ (∃ t, exec .out State.reset = .next t) ∧
    writesOutput .getc = false ∧ ∃ t, exec .getc (start 0 0x3000 [] 0 [] [0x41]) = .next t :=
  ⟨rfl, ⟨_, rfl⟩, rfl, _, rfl⟩

theorem test_witness_TraceIsNeverRead : ∃ t, step (start 0xF021 0x3000) = .next t := ⟨_, rfl⟩

/-- Every admissible COND word, and a memory with one listed byte. -/
theorem test_witness_ResetMeetsInvariant :
    Memory.wf [(0x6000, 0x12)] = true ∧ CondLegal 0 ∧ CondLegal Config.flNeg := by decide

theorem test_witness_StepKeepsInvariant :
    (start 0x107D 0x3000 [] 0).Inv ∧ ∃ t, step (start 0x107D 0x3000 [] 0) = .next t :=
  ⟨by decide, _, rfl⟩

theorem test_witness_RunKeepsInvariant :
    (start 0xF020 0x3000).Inv ∧
    ∃ t, runEvents [.key 0x41, .cpu] (start 0xF020 0x3000) = .next t :=
  ⟨by decide, _, rfl⟩

/-- One word at the last address, origin + n = 65536, and an index inside it. -/
theorem test_witness_ImageLoadPlacesWords :
    (0xFF : Byte).toNat * 256 + (0xFF : Byte).toNat + [(0x12 : Byte), 0x34].length / 2 ≤ 65536 ∧
    2 * 0 + 1 < [(0x12 : Byte), 0x34].length ∧
    (0xFFFE : Word).toNat < (0xFF : Byte).toNat * 256 + (0xFF : Byte).toNat := by decide

/-- Two words at the last address, a short image, and a load of two images. -/
theorem test_witness_ImageCornerCasesAndOrder :
    65536 < (0xFF : Byte).toNat * 256 + (0xFF : Byte).toNat +
      [(0x12 : Byte), 0x34, 0x56, 0x78].length / 2 ∧
    [(0x30 : Byte)].length < 2 ∧
    (∃ t, loadImages [.bytes [0x30, 0x00, 0x12, 0x34]] State.reset = .next t) ∧
    ∃ t, loadImages ([.bytes [0x30]] ++ [.bytes [0x30, 0x00, 0x12, 0x34]]) State.reset = .next t :=
  ⟨by decide, by decide, ⟨_, rfl⟩, _, rfl⟩

theorem test_witness_LaunchStartsAtPcStart :
    (∃ u, loadImages [.bytes [0x40, 0x00, 0x12, 0x34]] State.reset = .next u) ∧
    ∃ t, launchFrom State.reset [.bytes [0x40, 0x00, 0x12, 0x34]] = .next t :=
  ⟨⟨_, rfl⟩, _, rfl⟩

/-- A line at the last address of memory. -/
theorem test_witness_AssembledTextLoads :
    assembleFrom 0xFFFF [.brAlways 0xFFFF] = some [0x0FFF] ∧ (0xFFFF : Word).toNat + 1 ≤ 65536 := by
  decide

end Sys2Proof.Tests
end

section
/-! SUPPORT. The family 00_scope: sign extension (R8), and the complete list of what a step of a
running machine can answer (R11). -/

namespace Sys2Proof.Machine

/-! ## Sign extension at every width up to the word's -/

/-- R8's formula on unsigned values. -/
theorem toNat_sext {n : Nat} (hn : n ≤ 16) (f : BitVec n) :
    (sext f).toNat = if f.msb then f.toNat + (65536 - 2 ^ n) else f.toNat := by
  have hpow : 2 ^ n ≤ 65536 := Nat.pow_le_pow_right (n := 2) (by decide) hn
  have hf : f.toNat < 2 ^ n := f.isLt
  have hwide : (f.setWidth 16).toNat = f.toNat := by
    rw [BitVec.toNat_setWidth, Nat.mod_eq_of_lt (by omega)]
  unfold sext
  split
  · rw [BitVec.toNat_add, BitVec.toNat_ofNat, hwide]
    have hpos : 0 < 2 ^ n := Nat.two_pow_pos n
    omega
  · exact hwide

/-- R8's formula is the two's-complement sign extension. -/
theorem sext_eq_signExtend {n : Nat} (hn : n ≤ 16) (f : BitVec n) :
    sext f = f.signExtend 16 := by
  apply BitVec.eq_of_toNat_eq
  rw [toNat_sext hn, BitVec.toNat_signExtend, BitVec.toNat_setWidth_of_le hn]
  split <;> rfl

theorem toInt_sext {n : Nat} (hn : n ≤ 16) (f : BitVec n) : (sext f).toInt = f.toInt := by
  rw [sext_eq_signExtend hn, BitVec.toInt_signExtend_of_le hn]

/-- Settles O6: the formula, the value and the range hold at every width up to 16. -/
theorem signExtensionKeepsValue : Obligations.SignExtensionKeepsValue := by
  unfold Obligations.SignExtensionKeepsValue
  intro n hmem f
  have hn : n ≤ 16 := by
    simp only [List.mem_cons, List.not_mem_nil, or_false] at hmem
    omega
  refine ⟨?_, toInt_sext hn f, ?_⟩
  · rw [toNat_sext hn, BitVec.msb_eq_getLsbD_last]
  · rw [toInt_sext hn]
    exact ⟨BitVec.le_toInt f, BitVec.toInt_lt⟩

/-! ## The decoder yields only well-formed terms -/

/-- The generic TRAP term is reached only past the comparisons with all six service vectors. -/
theorem decodeTrap_wellFormed (v : Byte) : (decodeTrap v).WellFormed := by
  unfold decodeTrap
  split_ifs
  case neg hgetc hout hputs hin hputsp hhalt =>
    simp [Instr.WellFormed, Instr.wellFormed, serviceVectors, hgetc, hout, hputs, hin, hputsp,
      hhalt]
  all_goals rfl

theorem wellFormed_ite {c : Prop} [Decidable c] {i j : Instr} (hi : i.WellFormed)
    (hj : j.WellFormed) : (if c then i else j).WellFormed := by
  split
  · exact hi
  · exact hj

/-- Only opcode 15 decodes to a term that the check looks into. -/
theorem decode_wellFormed (w : Word) : (decode w).WellFormed := by
  unfold decode
  exact wellFormed_ite rfl <| wellFormed_ite (wellFormed_ite rfl rfl) <| wellFormed_ite rfl <|
    wellFormed_ite rfl <| wellFormed_ite (wellFormed_ite rfl rfl) <|
    wellFormed_ite (wellFormed_ite rfl rfl) <| wellFormed_ite rfl <| wellFormed_ite rfl <|
    wellFormed_ite rfl <| wellFormed_ite rfl <| wellFormed_ite rfl <| wellFormed_ite rfl <|
    wellFormed_ite rfl <| wellFormed_ite rfl <| wellFormed_ite rfl <| decodeTrap_wellFormed _

/-! ## When a scan of the whole memory meets no terminator -/

/-- Addresses wrap, so the `memWords` words from any address on are all of memory. -/
theorem forall_addr_iff_forall_offset (P : Word → Prop) (a : Word) :
    (∀ b, P b) ↔ ∀ k < Config.memWords, P (a + BitVec.ofNat 16 k) := by
  refine ⟨fun h k _ => h _, fun h b => ?_⟩
  have hb : a + BitVec.ofNat 16 (b - a).toNat = b := by
    rw [BitVec.ofNat_toNat, BitVec.setWidth_eq, BitVec.add_comm, BitVec.sub_add_cancel]
  exact hb ▸ h (b - a).toNat (b - a).isLt

theorem succ_add_ofNat (a : Word) (k : Nat) :
    a + 1 + BitVec.ofNat 16 k = a + BitVec.ofNat 16 (k + 1) := by
  rw [BitVec.add_assoc, BitVec.add_comm 1, BitVec.ofNat_add]; rfl

theorem scanPuts_eq_none_iff (m : Memory) (fuel : Nat) (a : Word) :
    scanPuts m fuel a = none ↔ ∀ k < fuel, m.readWord (a + BitVec.ofNat 16 k) ≠ 0 := by
  induction fuel generalizing a with
  | zero => simp [scanPuts]
  | succ fuel ih =>
    rw [Nat.forall_lt_succ_left, BitVec.add_zero]
    by_cases h : m.readWord a = 0
    · simp [scanPuts_stop h, h]
    · simp only [scanPuts_step h, Option.map_eq_none_iff, ih, succ_add_ofNat, ne_eq, h,
        not_false_eq_true, true_and]

theorem scanPutsp_eq_none_iff (m : Memory) (fuel : Nat) (a : Word) :
    scanPutsp m fuel a = none ↔ ∀ k < fuel,
      lowByte (m.readWord (a + BitVec.ofNat 16 k)) ≠ 0 ∧
      highByte (m.readWord (a + BitVec.ofNat 16 k)) ≠ 0 := by
  induction fuel generalizing a with
  | zero => simp [scanPutsp]
  | succ fuel ih =>
    rw [Nat.forall_lt_succ_left, BitVec.add_zero]
    by_cases hl : lowByte (m.readWord a) = 0
    · simp [scanPutsp_stop_low hl, hl]
    by_cases hh : highByte (m.readWord a) = 0
    · simp [scanPutsp_stop_high hl hh, hh]
    · simp only [scanPutsp_step hl hh, Option.map_eq_none_iff, ih, succ_add_ofNat, ne_eq, hl, hh,
        not_false_eq_true, and_self, true_and]

/-! ## Everything a service that can stop can answer -/

/-- GETC completes, or is held on an empty queue. -/
theorem serviceGetc_outcomes (s : State) :
    (∃ t, serviceGetc s = .next t) ∨
    (s.inQueue = [] ∧ serviceGetc s = .fault .awaitingInput) := by
  cases hq : s.inQueue with
  | nil => exact .inr ⟨rfl, by rw [serviceGetc, keyRead_nil hq]⟩
  | cons c q => exact .inl ⟨_, by rw [serviceGetc, keyRead_cons hq]⟩

/-- IN completes, or is held on an empty queue; the prompt leaves the queue alone. -/
theorem serviceIn_outcomes (s : State) :
    (∃ t, serviceIn s = .next t) ∨
    (s.inQueue = [] ∧ serviceIn s = .fault .awaitingInput) := by
  have hprompt : (conOutAll s Config.inPrompt).inQueue = s.inQueue := rfl
  cases hq : s.inQueue with
  | nil => exact .inr ⟨rfl, by rw [serviceIn, keyReadEcho_nil (hprompt.trans hq)]⟩
  | cons c q => exact .inl ⟨_, by rw [serviceIn, keyReadEcho_cons (hprompt.trans hq)]⟩

/-- PUTS completes, or hangs in a memory without a zero word. -/
theorem servicePuts_outcomes (s : State) :
    (∃ t, servicePuts s = .next t) ∨
    ((∀ a, memPeek s a ≠ 0) ∧ servicePuts s = .fault .unterminatedScan) := by
  rcases writeScanned_cases s (scanPuts s.mem Config.memWords (s.getReg .r0)) with
    ⟨_, _, e⟩ | ⟨hnone, e⟩
  · exact .inl ⟨_, e⟩
  · refine .inr ⟨?_, e⟩
    rw [forall_addr_iff_forall_offset _ (s.getReg .r0)]
    exact (scanPuts_eq_none_iff ..).mp hnone

/-- PUTSP completes, or hangs in a memory without a zero byte. -/
theorem servicePutsp_outcomes (s : State) :
    (∃ t, servicePutsp s = .next t) ∨
    ((∀ a, lowByte (memPeek s a) ≠ 0 ∧ highByte (memPeek s a) ≠ 0) ∧
      servicePutsp s = .fault .unterminatedScan) := by
  rcases writeScanned_cases s (scanPutsp s.mem Config.memWords (s.getReg .r0)) with
    ⟨_, _, e⟩ | ⟨hnone, e⟩
  · exact .inl ⟨_, e⟩
  · refine .inr ⟨?_, e⟩
    rw [forall_addr_iff_forall_offset _ (s.getReg .r0)]
    exact (scanPutsp_eq_none_iff ..).mp hnone

theorem ne_zero_of_lowByte_ne_zero {v : Word} (h : lowByte v ≠ 0) : v ≠ 0 :=
  fun hv => h (hv ▸ rfl)

/-! ## Everything an instruction and a step can answer -/

theorem execBr_completes (nzp : BitVec 3) (off : BitVec 9) (s : State) :
    ∃ t, execBr nzp off s = .next t := by
  unfold execBr
  split
  · exact ⟨_, rfl⟩
  · exact ⟨_, rfl⟩

/-- Everything a well-formed instruction can answer: a next state, the hold of GETC and IN, or
the hang of PUTS and PUTSP. -/
theorem exec_outcomes {i : Instr} (hi : i.WellFormed) (s : State) :
    (∃ t, exec i s = .next t) ∨
    ((i = .getc ∨ i = .inp) ∧ s.inQueue = [] ∧ exec i s = .fault .awaitingInput) ∨
    ((i = .puts ∨ i = .putsp) ∧ (∀ a, memPeek s a ≠ 0) ∧
      exec i s = .fault .unterminatedScan) := by
  cases i with
  | br nzp off => exact .inl (execBr_completes nzp off s)
  | getc => exact (serviceGetc_outcomes s).imp_right fun h => .inl ⟨.inl rfl, h⟩
  | inp => exact (serviceIn_outcomes s).imp_right fun h => .inl ⟨.inr rfl, h⟩
  | puts => exact (servicePuts_outcomes s).imp_right fun h => .inr ⟨.inl rfl, h⟩
  | putsp =>
    refine (servicePutsp_outcomes s).imp_right fun ⟨hbytes, e⟩ => .inr ⟨.inr rfl, ?_, e⟩
    exact fun a => ne_zero_of_lowByte_ne_zero (hbytes a).1
  | trap vec =>
    exact .inl ⟨s, trapDispatch_of_not_service (not_mem_serviceVectors_of_wellFormed hi) s⟩
  | _ => exact .inl ⟨_, rfl⟩

/-- The two status words decode to a BR that is never taken and to RTI. -/
theorem decode_fetch_at_kbsr {s : State} (h : s.pc = Config.kbsrAddr) :
    decode (fetch s).1 = .br 0 0 ∨ decode (fetch s).1 = .rti := by
  rcases fetch_at_kbsr h with e | e <;> rw [e]
  · exact .inl (by decide)
  · exact .inr (by decide)

/-- The fetch of any other instruction did not poll: it only advanced PC. -/
theorem fetch_state_of_decode {s : State} {i : Instr} (h : decode (fetch s).1 = i)
    (hbr : i ≠ .br 0 0) (hrti : i ≠ .rti) : (fetch s).2 = s.setPc (s.pc + 1) := by
  have hpc : s.pc ≠ Config.kbsrAddr := fun hpc =>
    (decode_fetch_at_kbsr hpc).elim (fun e => hbr (h ▸ e)) (fun e => hrti (h ▸ e))
  rw [fetch_of_ne hpc]

/-- Settles O43: the outcomes of `exec` on the fetched state, which for the four services that can
stop has the memory and the queue of the state before the fetch. -/
theorem stepOutcomesAreComplete : Obligations.StepOutcomesAreComplete := by
  unfold Obligations.StepOutcomesAreComplete
  intro s hrun
  rw [step_running hrun]
  rcases exec_outcomes (decode_wellFormed (fetch s).1) (fetch s).2 with
    hnext | ⟨hi, hqueue, e⟩ | ⟨hi, hmem, e⟩
  · exact .inl hnext
  · have hf : (fetch s).2 = s.setPc (s.pc + 1) := by
      rcases hi with hi | hi <;> exact fetch_state_of_decode hi (by decide) (by decide)
    rw [hf] at hqueue
    exact .inr (.inl ⟨hi, hqueue, e⟩)
  · have hf : (fetch s).2 = s.setPc (s.pc + 1) := by
      rcases hi with hi | hi <;> exact fetch_state_of_decode hi (by decide) (by decide)
    rw [hf] at hmem
    exact .inr (.inr ⟨hi, hmem, e⟩)

end Sys2Proof.Machine
end

section
/-! SUPPORT. The family 10_state: everything one instruction can do to the state, the invariant along
every run, who writes RUNNING, COND, the registers, PC, the queue and the trace, and that no
instruction reads the trace or RUNNING. -/

namespace Sys2Proof.Machine

/-! ## The MemReads of an instruction's body -/

/-- The state after `MemRead`s at the listed addresses, in order. -/
def afterReads (s : State) : List Word → State
  | [] => s
  | a :: as => afterReads (memRead s a).2 as

/-- What every `MemRead` keeps, reads in a row keep. -/
theorem afterReads_keeps {P : State → Prop} (hP : ∀ u a, P u → P (memRead u a).2) {s : State}
    (as : List Word) (hs : P s) : P (afterReads s as) := by
  induction as generalizing s with
  | nil => exact hs
  | cons a as ih => exact ih (hP s a hs)

@[simp] theorem afterReads_regs (s : State) (as : List Word) : (afterReads s as).regs = s.regs :=
  afterReads_keeps (P := fun u => u.regs = s.regs) (fun u a h => (memRead_regs u a).trans h) as rfl

@[simp] theorem afterReads_getReg (s : State) (as : List Word) (r : Reg) :
    (afterReads s as).getReg r = s.getReg r := by
  simp only [State.getReg, afterReads_regs]

@[simp] theorem afterReads_pc (s : State) (as : List Word) : (afterReads s as).pc = s.pc :=
  afterReads_keeps (P := fun u => u.pc = s.pc) (fun u a h => (memRead_pc u a).trans h) as rfl

@[simp] theorem afterReads_cond (s : State) (as : List Word) : (afterReads s as).cond = s.cond :=
  afterReads_keeps (P := fun u => u.cond = s.cond) (fun u a h => (memRead_cond u a).trans h) as rfl

@[simp] theorem afterReads_running (s : State) (as : List Word) :
    (afterReads s as).running = s.running :=
  afterReads_keeps (P := fun u => u.running = s.running)
    (fun u a h => (memRead_running u a).trans h) as rfl

@[simp] theorem afterReads_trace (s : State) (as : List Word) :
    (afterReads s as).trace = s.trace :=
  afterReads_keeps (P := fun u => u.trace = s.trace) (fun u a h => (memRead_trace u a).trans h) as
    rfl

theorem afterReads_wf {s : State} (as : List Word) (h : s.mem.wf = true) :
    (afterReads s as).mem.wf = true :=
  afterReads_keeps (P := fun u => u.mem.wf = true) (fun _ a hu => memRead_wf a hu) as h

/-- A read takes a key only at the status address, and then at most one (R34, D9). -/
theorem memRead_inQueue (s : State) (a : Word) :
    ∃ taken, s.inQueue = taken ++ (memRead s a).2.inQueue ∧
      taken.length ≤ if a = Config.kbsrAddr then 1 else 0 := by
  rcases memRead_cases s a with ⟨_, e⟩ | ⟨_, _, e⟩ | ⟨c, q, ha, hq, e⟩ <;> rw [e]
  · exact ⟨[], rfl, Nat.zero_le _⟩
  · exact ⟨[], rfl, Nat.zero_le _⟩
  · exact ⟨[c], hq, by simp [ha]⟩

theorem afterReads_inQueue (s : State) (as : List Word) :
    ∃ taken, s.inQueue = taken ++ (afterReads s as).inQueue ∧
      taken.length ≤ as.count Config.kbsrAddr := by
  induction as generalizing s with
  | nil => exact ⟨[], rfl, Nat.zero_le _⟩
  | cons a as ih =>
    obtain ⟨first, hfirst, hone⟩ := memRead_inQueue s a
    obtain ⟨later, hlater, hcount⟩ := ih (memRead s a).2
    refine ⟨first ++ later, by rw [hfirst, hlater, List.append_assoc]; rfl, ?_⟩
    simp only [List.length_append, List.count_cons, beq_iff_eq]
    omega

/-! ## Everything an instruction can do -/

/-- What a well-formed instruction with a next state has done to `s`. -/
inductive Effect (i : Instr) (s : State) : State → Prop
  /-- Nothing: a BR not taken, RTI, RES and an undefined vector. -/
  | nothing : Effect i s s
  /-- The body's reads, then a destination and its flags. -/
  | dest (dr : Reg) (v : Word) (hflag : flagDest i = some dr) (hwritten : writtenReg i = some dr) :
      Effect i s (writeDest (afterReads s (readAddrs s i)) dr v)
  /-- The body's reads, then a direct store. -/
  | store (a v : Word) (haddr : storeAddr s i = some a) :
      Effect i s (memWrite (afterReads s (readAddrs s i)) a v)
  /-- A new PC. -/
  | jump (target : Word) (htransfer : isTransfer i = true) : Effect i s (s.setPc target)
  /-- The return address in R7, then a new PC. -/
  | link (target : Word) (htransfer : isTransfer i = true) (hwritten : writtenReg i = some .r7) :
      Effect i s ((s.setReg .r7 s.pc).setPc target)
  /-- The next key into R0, for IN with output. -/
  | key (c : Byte) (q : List Byte) (evs : List OutEvent) (htakes : takesKey i = true)
      (hwritten : writtenReg i = some .r0) (hqueue : s.inQueue = c :: q)
      (hsilent : writesOutput i = false → evs = []) :
      Effect i s (((s.setInQueue q).emit evs).setReg .r0 (zextByte c))
  /-- Output. -/
  | output (evs : List OutEvent) (hwrites : writesOutput i = true) : Effect i s (s.emit evs)
  /-- RUNNING becomes 0. -/
  | stop (hhalt : i = .halt) : Effect i s (s.setRunning false)

theorem effect_br {nzp : BitVec 3} {off : BitVec 9} {s t : State}
    (h : execBr nzp off s = .next t) : Effect (.br nzp off) s t := by
  unfold execBr at h
  split at h <;> cases h
  · exact .jump _ rfl
  · exact .nothing

@[simp] theorem State.emit_nil (s : State) : s.emit [] = s := by simp [State.emit]

theorem effect_getc {s t : State} (h : serviceGetc s = .next t) : Effect .getc s t := by
  obtain ⟨c, q, hq, rfl⟩ := serviceGetc_next h
  have e := Effect.key (i := .getc) c q [] rfl rfl hq fun _ => rfl
  rwa [State.emit_nil] at e

theorem effect_inp {s t : State} (h : serviceIn s = .next t) : Effect .inp s t := by
  obtain ⟨c, q, hq, rfl⟩ := serviceIn_next h
  exact .key c q _ rfl rfl hq nofun

/-- The inversion lemma of `exec`. -/
theorem exec_effect {i : Instr} (hi : i.WellFormed) {s t : State} (h : exec i s = .next t) :
    Effect i s t := by
  cases i with
  | br nzp off => exact effect_br h
  | addReg | addImm | andReg | andImm | not | ld | ldi | ldr | lea =>
    cases h; exact .dest _ _ rfl rfl
  | st | str | sti => cases h; exact .store _ _ rfl
  | jmp => cases h; exact .jump _ rfl
  | jsr | jsrr => cases h; exact .link _ rfl rfl
  | rti | res => cases h; exact .nothing
  | getc => exact effect_getc h
  | inp => exact effect_inp h
  | out => cases (serviceOut_eq s).symm.trans h; exact .output _ rfl
  | puts => obtain ⟨bs, _, rfl⟩ := servicePuts_next h; exact .output _ rfl
  | putsp => obtain ⟨bs, _, rfl⟩ := servicePutsp_next h; exact .output _ rfl
  | halt => cases h; exact .stop rfl
  | trap v =>
    cases (trapDispatch_of_not_service (not_mem_serviceVectors_of_wellFormed hi) s).symm.trans h
    exact .nothing

/-- A TRAP term, well formed or not, means what its vector decodes to. -/
theorem exec_decodeTrap (v : Byte) (s : State) : exec (decodeTrap v) s = exec (.trap v) s := by
  show _ = trapDispatch v s
  unfold decodeTrap trapDispatch
  split_ifs
  case neg hgetc hout hputs hin hputsp hhalt =>
    exact trapDispatch_of_not_service (by
      simp [serviceVectors, hgetc, hout, hputs, hin, hputsp, hhalt]) s
  all_goals rfl

theorem flagDest_decodeTrap (v : Byte) : flagDest (decodeTrap v) = none := by
  unfold decodeTrap; split_ifs <;> rfl

theorem isTransfer_decodeTrap (v : Byte) : isTransfer (decodeTrap v) = false := by
  unfold decodeTrap; split_ifs <;> rfl

/-- Every term means the same as some well-formed one that is listed alike for COND and PC. -/
theorem exists_wellFormed_alike (i : Instr) :
    ∃ j : Instr, j.WellFormed ∧ (∀ s, exec j s = exec i s) ∧ flagDest j = flagDest i ∧
      isTransfer j = isTransfer i := by
  cases i with
  | trap v =>
    exact ⟨decodeTrap v, decodeTrap_wellFormed v, exec_decodeTrap v, flagDest_decodeTrap v,
      isTransfer_decodeTrap v⟩
  | _ => exact ⟨_, rfl, fun _ => rfl, rfl, rfl⟩

/-! ## What each field of the state becomes -/

section Fields

variable {i : Instr} {s t : State}

theorem Effect.wf (h : Effect i s t) (hs : s.mem.wf = true) : t.mem.wf = true := by
  cases h with
  | dest => exact afterReads_wf _ hs
  | store => exact memWrite_wf _ _ (afterReads_wf _ hs)
  | _ => exact hs

theorem Effect.cond (h : Effect i s t) (hi : flagDest i = none) : t.cond = s.cond := by
  cases h with
  | dest dr v hflag => simp [hflag] at hi
  | store => simp
  | _ => rfl

theorem Effect.getReg (h : Effect i s t) {r : Reg} (hr : writtenReg i ≠ some r) :
    t.getReg r = s.getReg r := by
  cases h with
  | dest dr v _ hw => simp [show r ≠ dr from fun e => hr (e ▸ hw)]
  | store => simp
  | link _ _ hw => simp [show r ≠ .r7 from fun e => hr (e ▸ hw)]
  | key _ _ _ _ hw => simp [show r ≠ .r0 from fun e => hr (e ▸ hw)]
  | _ => rfl

theorem Effect.pc (h : Effect i s t) (hi : isTransfer i = false) : t.pc = s.pc := by
  cases h with
  | dest | store => simp
  | jump _ ht => simp [ht] at hi
  | link _ ht => simp [ht] at hi
  | _ => rfl

theorem Effect.running (h : Effect i s t) (hi : i ≠ .halt) : t.running = s.running := by
  cases h with
  | dest | store => simp
  | stop hhalt => exact absurd hhalt hi
  | _ => rfl

theorem Effect.trace (h : Effect i s t) :
    ∃ evs, t.trace = s.trace ++ evs ∧ (writesOutput i = false → evs = []) := by
  cases h with
  | key _ _ evs _ _ _ hsilent => exact ⟨evs, rfl, hsilent⟩
  | output evs hw => exact ⟨evs, rfl, by simp [hw]⟩
  | _ => exact ⟨[], by simp, fun _ => rfl⟩

theorem Effect.inQueue (h : Effect i s t) :
    ∃ taken, s.inQueue = taken ++ t.inQueue ∧
      taken.length ≤ (readAddrs s i).count Config.kbsrAddr + (if takesKey i then 1 else 0) := by
  cases h with
  | dest | store =>
    obtain ⟨taken, hq, hcount⟩ := afterReads_inQueue s (readAddrs s i)
    exact ⟨taken, hq, Nat.le_add_right_of_le hcount⟩
  | key c q _ htakes _ hqueue => exact ⟨[c], hqueue, by simp [htakes]⟩
  | _ => exact ⟨[], rfl, Nat.zero_le _⟩

end Fields

/-! ## The flag codes -/

theorem classify_zero : classify 0 = Config.flZro := rfl

theorem classify_negative {v : Word} (h : v ≠ 0) (hbit : v.getLsbD 15 = true) :
    classify v = Config.flNeg := by
  rw [classify, if_neg h, if_pos hbit]

theorem classify_positive {v : Word} (h : v ≠ 0) (hbit : v.getLsbD 15 = false) :
    classify v = Config.flPos := by
  rw [classify, if_neg h, hbit]; rfl

/-- Settles O8: `setcc` writes `classify` of the register to COND and nothing else. -/
theorem setccClassifies : Obligations.SetccClassifies := by
  unfold Obligations.SetccClassifies
  intro s r
  have hcond : (setcc s r).cond = classify (s.getReg r) := rfl
  rw [hcond]
  exact ⟨fun h => h ▸ classify_zero, classify_negative, classify_positive, fun _ => rfl, rfl,
    fun _ => rfl, rfl, rfl, rfl⟩

theorem getLsbD_sign (v : Word) : v.getLsbD 15 = true ↔ v.toInt < 0 := by
  have hmsb : v.msb = v.getLsbD 15 := BitVec.msb_eq_getLsbD_last v
  rw [← hmsb, BitVec.msb_eq_toInt, decide_eq_true_iff]

theorem flagsOf_classify (v : Word) : FlagsOf v (classify v) := by
  refine ⟨fun h => h ▸ classify_zero, fun h => ?_, fun h => ?_⟩
  · exact classify_negative (by rintro rfl; exact absurd h (by decide)) ((getLsbD_sign v).mpr h)
  · refine classify_positive (by rintro rfl; exact absurd h (by decide)) ?_
    exact Bool.eq_false_iff.mpr fun hbit => by have := (getLsbD_sign v).mp hbit; omega

theorem classify_mem_codes (v : Word) :
    classify v = Config.flPos ∨ classify v = Config.flZro ∨ classify v = Config.flNeg := by
  rcases classify_cases v with ⟨_, e⟩ | ⟨_, _, e⟩ | ⟨_, _, e⟩ <;> simp [e]

theorem classify_ne_zero (v : Word) : classify v ≠ 0 := by
  rcases classify_mem_codes v with e | e | e <;> rw [e] <;> decide

/-- A flag-updating instruction completes with the code of its destination (R22). -/
theorem cond_of_flagDest {i : Instr} {s t : State} {dr : Reg} (h : exec i s = .next t)
    (hi : flagDest i = some dr) : t.cond = classify (t.getReg dr) := by
  cases i with
  | addReg | addImm | andReg | andImm | not | ld | ldi | ldr | lea =>
    cases hi; cases h; rfl
  | _ => cases hi

theorem cond_of_not_flagDest {i : Instr} {s t : State} (h : exec i s = .next t)
    (hi : flagDest i = none) : t.cond = s.cond := by
  obtain ⟨j, hj, hexec, hdest, _⟩ := exists_wellFormed_alike i
  exact (exec_effect hj ((hexec s).trans h)).cond (hdest.trans hi)

/-- COND after an instruction is what it was or a code. -/
theorem cond_cases {i : Instr} {s t : State} (h : exec i s = .next t) :
    t.cond = s.cond ∨ ∃ v, t.cond = classify v := by
  cases hi : flagDest i with
  | none => exact .inl (cond_of_not_flagDest h hi)
  | some dr => exact .inr ⟨_, cond_of_flagDest h hi⟩

/-- Settles O45: COND becomes `classify` of the destination or stays. -/
theorem condWrittenByTheSeven : Obligations.CondWrittenByTheSeven := by
  unfold Obligations.CondWrittenByTheSeven
  intro i s t h
  refine ⟨fun dr hi => ?_, cond_of_not_flagDest h, fun hs => ?_⟩
  · rw [cond_of_flagDest h hi]
    exact ⟨flagsOf_classify _, classify_ne_zero _⟩
  · rcases cond_cases h with e | ⟨v, e⟩ <;> rw [e]
    · exact hs
    · exact classify_mem_codes v

/-! ## The invariant -/

theorem condLegal_classify (v : Word) : CondLegal (classify v) := by
  rcases classify_mem_codes v with e | e | e
  · exact .inl e
  · exact .inr (.inl e)
  · exact .inr (.inr (.inl e))

theorem exec_keeps_inv {i : Instr} (hi : i.WellFormed) {s t : State} (hs : s.Inv)
    (h : exec i s = .next t) : t.Inv := by
  obtain ⟨hwf, hcond⟩ := hs
  refine ⟨(exec_effect hi h).wf hwf, ?_⟩
  rcases cond_cases h with e | ⟨v, e⟩ <;> rw [e]
  · exact hcond
  · exact condLegal_classify v

theorem fetch_keeps_inv {s : State} (hs : s.Inv) : (fetch s).2.Inv := by
  obtain ⟨hwf, hcond⟩ := hs
  exact ⟨memRead_wf s.pc hwf, (fetch_cond s).symm ▸ hcond⟩

/-- A step with a next state is `exec` of the decoded word, which is well formed. -/
theorem exec_of_step {s t : State} (h : step s = .next t) :
    exec (decode (fetch s).1) (fetch s).2 = .next t :=
  (step_running (running_of_step h)).symm.trans h

theorem step_effect {s t : State} (h : step s = .next t) :
    Effect (decode (fetch s).1) (fetch s).2 t :=
  exec_effect (decode_wellFormed _) (exec_of_step h)

/-- Settles O53: the fetch keeps the invariant, and so does every well-formed instruction. -/
theorem stepKeepsInvariant : Obligations.StepKeepsInvariant := by
  unfold Obligations.StepKeepsInvariant
  intro s t hs h
  exact exec_keeps_inv (decode_wellFormed _) (fetch_keeps_inv hs) (exec_of_step h)

theorem step_trace {s t : State} (h : step s = .next t) : s.trace <+: t.trace := by
  obtain ⟨evs, htrace, _⟩ := (step_effect h).trace
  exact ⟨evs, by rw [htrace, fetch_trace]⟩

/-- What one event with a next state keeps. -/
theorem applyEvent_keeps {e : RunEvent} {s t : State} (hs : s.Inv) (h : applyEvent e s = .next t) :
    t.Inv ∧ s.trace <+: t.trace ∧ e ≠ .abort := by
  cases e with
  | cpu => exact ⟨stepKeepsInvariant s t hs h, step_trace h, nofun⟩
  | key c => cases h; exact ⟨hs, ⟨[], List.append_nil _⟩, nofun⟩
  | abort => cases h

/-- Settles O54, by induction on the events: each keeps the invariant for the rest of the run. -/
theorem runKeepsInvariant : Obligations.RunKeepsInvariant := by
  unfold Obligations.RunKeepsInvariant
  intro es
  induction es with
  | nil => intro s t hs h; cases h; exact ⟨hs, ⟨[], List.append_nil _⟩, List.not_mem_nil⟩
  | cons e es ih =>
    intro s t hs h
    obtain ⟨u, hevent, hrest⟩ := runEvents_cons_next h
    obtain ⟨hu, heventTrace, hne⟩ := applyEvent_keeps hs hevent
    obtain ⟨ht, hrestTrace, hnoAbort⟩ := ih u t hu hrest
    exact ⟨ht, heventTrace.trans hrestTrace, by simp [hnoAbort, hne.symm]⟩

/-! ## Nothing reads RUNNING or the trace -/

/-- The same machine with another past: `p` stands before its trace, and RUNNING is 0 unless `b`. -/
def State.withPast (p : List OutEvent) (b : Bool) (s : State) : State :=
  { s with trace := p ++ s.trace, running := s.running && b }

/-- The outcome with its next state, if any, mapped. -/
def mapNext (f : State → State) : Host.Outcome State Fault Refusal → Host.Outcome State Fault Refusal
  | .next s => .next (f s)
  | .fault r => .fault r
  | .refused r => .refused r

theorem mapNext_eq_next {f : State → State} {o : Host.Outcome State Fault Refusal} {t : State}
    (h : mapNext f o = .next t) : ∃ u, o = .next u ∧ t = f u := by
  cases o with
  | next u => cases h; exact ⟨u, rfl, rfl⟩
  | fault r => cases h
  | refused r => cases h

section Past

variable (p : List OutEvent) (b : Bool) (s : State)

@[simp] theorem State.withPast_pc : (s.withPast p b).pc = s.pc := rfl
@[simp] theorem State.withPast_cond : (s.withPast p b).cond = s.cond := rfl
@[simp] theorem State.withPast_running :
    (s.withPast p b).running = (s.running && b) := rfl
@[simp] theorem State.withPast_inQueue : (s.withPast p b).inQueue = s.inQueue := rfl

theorem emit_withPast (evs : List OutEvent) :
    (s.withPast p b).emit evs = (s.emit evs).withPast p b := by
  simp [State.emit, State.withPast]

theorem keyRead_withPast :
    keyRead (s.withPast p b) = (keyRead s).map (Prod.map id (State.withPast p b)) := by
  unfold keyRead
  rw [State.withPast_inQueue]
  cases s.inQueue <;> rfl

theorem keyReadEcho_withPast :
    keyReadEcho (s.withPast p b) = (keyReadEcho s).map (Prod.map id (State.withPast p b)) := by
  unfold keyReadEcho
  rw [keyRead_withPast]
  cases keyRead s with
  | none => rfl
  | some k => simp [conOut, emit_withPast]

theorem keyboardPollAndLatch_withPast :
    keyboardPollAndLatch (s.withPast p b) = (keyboardPollAndLatch s).withPast p b := by
  unfold keyboardPollAndLatch
  rw [keyRead_withPast]
  cases keyRead s <;> rfl

theorem memRead_withPast (a : Word) :
    memRead (s.withPast p b) a = ((memRead s a).1, (memRead s a).2.withPast p b) := by
  unfold memRead
  rw [keyboardPollAndLatch_withPast]
  split <;> rfl

theorem fetch_withPast :
    fetch (s.withPast p b) = ((fetch s).1, (fetch s).2.withPast p b) := by
  unfold fetch
  rw [State.withPast_pc, memRead_withPast]; rfl

theorem loadFrom_withPast (dr : Reg) (a : Word) :
    loadFrom (s.withPast p b) dr a = (loadFrom s dr a).withPast p b := by
  unfold loadFrom
  rw [memRead_withPast]; rfl

theorem indirect_withPast (off : BitVec 9) :
    indirect (s.withPast p b) off = ((indirect s off).1, (indirect s off).2.withPast p b) :=
  memRead_withPast p b s (pcRel s off)

theorem execBr_withPast (nzp : BitVec 3) (off : BitVec 9) :
    execBr nzp off (s.withPast p b) = mapNext (State.withPast p b) (execBr nzp off s) := by
  unfold execBr
  rw [State.withPast_cond]
  split <;> rfl

theorem execLdi_withPast (dr : Reg) (off : BitVec 9) :
    execLdi dr off (s.withPast p b) = mapNext (State.withPast p b) (execLdi dr off s) := by
  simp only [execLdi, indirect_withPast, loadFrom_withPast, mapNext]

theorem execSti_withPast (sr : Reg) (off : BitVec 9) :
    execSti sr off (s.withPast p b) = mapNext (State.withPast p b) (execSti sr off s) := by
  simp only [execSti, indirect_withPast, mapNext]; rfl

theorem serviceGetc_withPast :
    serviceGetc (s.withPast p b) = mapNext (State.withPast p b) (serviceGetc s) := by
  unfold serviceGetc
  rw [keyRead_withPast]
  cases keyRead s <;> rfl

theorem serviceIn_withPast :
    serviceIn (s.withPast p b) = mapNext (State.withPast p b) (serviceIn s) := by
  unfold serviceIn conOutAll
  rw [emit_withPast, keyReadEcho_withPast]
  cases keyReadEcho (s.emit (Config.inPrompt.map .conOut)) <;> rfl

theorem writeScanned_withPast (o : Option (List Byte)) :
    writeScanned (s.withPast p b) o = mapNext (State.withPast p b) (writeScanned s o) := by
  cases o with
  | none => rfl
  | some bs => simp only [writeScanned, conFlush, conOutAll, emit_withPast, mapNext]

/-- Every instruction does the same whatever the past. -/
theorem exec_withPast (i : Instr) :
    exec i (s.withPast p b) = mapNext (State.withPast p b) (exec i s) := by
  obtain ⟨j, hj, hexec, _⟩ := exists_wellFormed_alike i
  rw [← hexec, ← hexec]
  cases j with
  | br nzp off => exact execBr_withPast p b s nzp off
  | ld dr off => exact congrArg _ (loadFrom_withPast p b s dr _)
  | ldr dr base off => exact congrArg _ (loadFrom_withPast p b s dr _)
  | ldi dr off => exact execLdi_withPast p b s dr off
  | sti sr off => exact execSti_withPast p b s sr off
  | getc => exact serviceGetc_withPast p b s
  | inp => exact serviceIn_withPast p b s
  | puts => exact writeScanned_withPast p b s _
  | putsp => exact writeScanned_withPast p b s _
  | out => simp only [exec, execOut, serviceOut_eq, emit_withPast, mapNext]; rfl
  | trap v =>
    have hnone := not_mem_serviceVectors_of_wellFormed hj
    simp only [exec, execTrap, trapDispatch_of_not_service hnone, mapNext]
  | _ => rfl

end Past

/-- With RUNNING left as it is, every step does the same whatever the trace. -/
theorem step_withPast (p : List OutEvent) (s : State) :
    step (s.withPast p true) = mapNext (State.withPast p true) (step s) := by
  unfold step
  rw [State.withPast_running, Bool.and_true]
  split
  · rw [fetch_withPast, exec_withPast]
  · rfl

/-- The machine with an empty trace and RUNNING 1: `withPast` leads from it to every other past. -/
def State.noPast (s : State) : State := { s with trace := [], running := true }

theorem State.withPast_noPast (s : State) (tr : List OutEvent) (b : Bool) :
    s.noPast.withPast tr b = { s with trace := tr, running := b } := by
  simp [State.withPast, State.noPast]

/-- An instruction that completes does so with any other trace and RUNNING, to the same state but
for these two. -/
theorem exec_with_other_past {i : Instr} {s t : State} (h : exec i s = .next t) :
    ∃ u : State, t = u.withPast s.trace s.running ∧
      ∀ tr b, exec i { s with trace := tr, running := b } = .next (u.withPast tr b) := by
  have hs : exec i (s.noPast.withPast s.trace s.running) = .next t := by
    rw [State.withPast_noPast]; exact h
  rw [exec_withPast] at hs
  obtain ⟨u, hu, ht⟩ := mapNext_eq_next hs
  exact ⟨u, ht, fun tr b => by rw [← State.withPast_noPast, exec_withPast, hu]; rfl⟩

/-- Settles O51: a step from an empty trace gives the events, and every old trace just stands before
them. -/
theorem traceIsNeverRead : Obligations.TraceIsNeverRead := by
  unfold Obligations.TraceIsNeverRead
  intro s t h
  have hpast : ∀ tr, { s with trace := tr } = s.noPast.withPast tr true := fun tr => by
    rw [State.withPast_noPast, ← running_of_step h]
  have hs : step (s.noPast.withPast s.trace true) = .next t := by rw [← hpast]; exact h
  rw [step_withPast] at hs
  obtain ⟨u, hu, rfl⟩ := mapNext_eq_next hs
  refine ⟨u.trace, rfl, fun tr => ⟨u.withPast tr true, ?_, rfl⟩⟩
  rw [hpast, step_withPast, hu]; rfl

/-- Settles O42: RUNNING after an instruction is the conjunction of the old one and a value that does
not depend on it, so it cannot rise, and the rest of the result is the same for both old values. -/
theorem runningGatesTheCycle : Obligations.RunningGatesTheCycle := by
  unfold Obligations.RunningGatesTheCycle
  refine ⟨fun _ _ _ _ => rfl, fun s => ⟨_, rfl, rfl⟩, fun s => step_running, fun s hs t h => ?_,
    fun i s t h hs => ?_, fun i s t b h => ?_⟩
  · cases hs.symm.trans (running_of_step h)
  · obtain ⟨u, rfl, _⟩ := exec_with_other_past h
    simp [State.withPast, hs]
  · obtain ⟨u, rfl, hother⟩ := exec_with_other_past h
    exact ⟨_, hother s.trace b⟩

/-! ## The step, field by field -/

/-- Settles O41: the decoder yields only well-formed terms. -/
theorem stepRunsDecodedInstruction : Obligations.StepRunsDecodedInstruction := by
  unfold Obligations.StepRunsDecodedInstruction
  rintro s i hrun rfl
  exact ⟨step_running hrun, decode_wellFormed _⟩

/-- Settles O44: only the HALT case of an instruction's effects touches RUNNING. -/
theorem runningFallsOnlyByHalt : Obligations.RunningFallsOnlyByHalt := by
  unfold Obligations.RunningFallsOnlyByHalt
  intro s t h
  have hrun := running_of_step h
  refine ⟨hrun, fun ht => ?_, fun hhalt => ?_⟩
  · by_contra hne
    have hkept := (step_effect h).running hne
    simp [ht, hrun] at hkept
  · have hexec := exec_of_step h
    rw [fetch_word, hhalt] at hexec
    cases hexec; rfl

/-- Settles O47: the body keeps the PC that the fetch advanced. -/
theorem pcWrittenOnlyByTransfers : Obligations.PcWrittenOnlyByTransfers := by
  unfold Obligations.PcWrittenOnlyByTransfers
  refine ⟨fun i s t h hi => ?_, fun s t h hi => ?_⟩
  · obtain ⟨j, hj, hexec, _, htransfer⟩ := exists_wellFormed_alike i
    exact (exec_effect hj ((hexec s).trans h)).pc (htransfer.trans hi)
  · rw [(step_effect h).pc hi, fetch_pc, BitVec.toNat_add]; rfl

/-- GETC and IN take the head of the queue into R0. -/
theorem exec_of_takesKey {i : Instr} {s t : State} (h : exec i s = .next t)
    (hi : takesKey i = true) :
    ∃ c q, s.inQueue = c :: q ∧ t.inQueue = q ∧ t.getReg .r0 = zextByte c := by
  cases i with
  | getc =>
    obtain ⟨c, q, hq, rfl⟩ := serviceGetc_next h
    exact ⟨c, q, hq, rfl, rfl⟩
  | inp =>
    obtain ⟨c, q, hq, rfl⟩ := serviceIn_next h
    exact ⟨c, q, hq, rfl, rfl⟩
  | _ => cases hi

/-- Settles O46: a register no effect names is kept; the links and the key are the values written. -/
theorem registersWrittenByEach : Obligations.RegistersWrittenByEach := by
  unfold Obligations.RegistersWrittenByEach
  intro i s t hi h
  refine ⟨fun r => (exec_effect hi h).getReg, ?_, ?_, fun c q hkey hq => ?_⟩
  · rintro off rfl; cases h; rfl
  · rintro base rfl; cases h; rfl
  · have htakes : takesKey i = true := by rcases hkey with rfl | rfl <;> rfl
    obtain ⟨c', q', hq', _, hr0⟩ := exec_of_takesKey h htakes
    cases hq.symm.trans hq'
    exact hr0

/-- Settles O49: GETC and IN take one key and read no memory, the rest take keys only by status
reads. -/
theorem inputQueueOnlyShrinks : Obligations.InputQueueOnlyShrinks := by
  unfold Obligations.InputQueueOnlyShrinks
  intro i s t hi h
  cases htakes : takesKey i with
  | true =>
    obtain ⟨c, q, hq, rfl, _⟩ := exec_of_takesKey h htakes
    exact ⟨[c], hq, by simp, fun _ => rfl⟩
  | false =>
    obtain ⟨taken, hq, hcount⟩ := (exec_effect hi h).inQueue
    exact ⟨taken, hq, htakes ▸ hcount, nofun⟩

/-- Settles O50: every effect appends, and only that of an output service appends an event. -/
theorem traceGrowsByOutputServices : Obligations.TraceGrowsByOutputServices := by
  unfold Obligations.TraceGrowsByOutputServices
  exact fun i s t hi h => (exec_effect hi h).trace

/-! ## Reset -/

/-- Settles O52: reset takes the given memory and COND; the model's own are empty and ZERO. -/
theorem resetMeetsInvariant : Obligations.ResetMeetsInvariant := by
  unfold Obligations.ResetMeetsInvariant
  exact ⟨⟨State.reset_wf, .inr (.inl rfl)⟩, fun _ _ _ _ hmem hcond => ⟨hmem, hcond⟩⟩

theorem memPeek_reset (a : Word) : memPeek State.reset a = 0 := by
  show wordOfBytes (Memory.readByte [] _) (Memory.readByte [] _) = 0
  rw [Memory.readByte_nil, Memory.readByte_nil]; decide

/-- Settles O55: the fields of `State.reset`; an unlisted word of memory reads as 0. -/
theorem resetState : Obligations.ResetState := by
  unfold Obligations.ResetState
  exact ⟨rfl, rfl, rfl, fun r => by cases r <;> rfl, rfl, memPeek_reset, rfl⟩

end Sys2Proof.Machine
end

section
/-! SUPPORT. The family 20_memory: what a store and a status read do to memory, who reads through
the keyboard shim, and the memory frame of every instruction. -/

namespace Sys2Proof.Machine

/-! ## Memories that agree outside some words -/

section Frames

variable {as bs : List Word} {s t u : State}

theorem MemSameBut.trans (hst : MemSameBut as s t) (htu : MemSameBut as t u) : MemSameBut as s u :=
  fun k hk => (htu k hk).trans (hst k hk)

theorem MemSameBut.mono (hsub : as ⊆ bs) (h : MemSameBut as s t) : MemSameBut bs s t :=
  fun k hk => h k fun a ha => hk a (hsub ha)

theorem memSameBut_memWrite {a : Word} (v : Word) (ha : a ∈ as) :
    MemSameBut as s (memWrite s a v) := by
  intro k hk
  obtain ⟨hhi, hlo⟩ := hk a ha
  rw [memWrite_mem, Memory.readByte_writeWord, if_neg hlo, if_neg hhi]

/-- Of two stores to one word only the second is seen. -/
theorem memSame_memWrite_memWrite (s : State) (a v w : Word) :
    MemSame (memWrite s a w) (memWrite (memWrite s a v) a w) := by
  intro k
  simp only [memWrite_mem, Memory.readByte_writeWord]
  split_ifs <;> rfl

/-- The same store into memories that read alike. -/
theorem memSame_memWrite (h : MemSame s t) (a v : Word) :
    MemSame (memWrite s a v) (memWrite t a v) := by
  intro k
  simp only [memWrite_mem, Memory.readByte_writeWord, h k]

end Frames

theorem memPeek_memWrite_same (s : State) (a v : Word) : memPeek (memWrite s a v) a = v := by
  rw [memPeek_memWrite, if_pos rfl]

theorem memPeek_memWrite_ne (s : State) {a b : Word} (v : Word) (h : b ≠ a) :
    memPeek (memWrite s a v) b = memPeek s b := by
  rw [memPeek_memWrite, if_neg h]

/-- Settles O21: a store is read back at its word, and its frame is that word. -/
theorem storeIsDirect : Obligations.StoreIsDirect := by
  unfold Obligations.StoreIsDirect
  intro s a v
  exact ⟨memPeek_memWrite_same s a v, fun _ => memPeek_memWrite_ne s v,
    memSameBut_memWrite v (List.mem_singleton.mpr rfl), fun _ => rfl, rfl, rfl, rfl, rfl, rfl⟩

/-! ## The meanings that read or store memory -/

section Meanings

variable (s : State) (dr sr base : Reg) (off : BitVec 9)

theorem exec_ld : exec (.ld dr off) s = .next (loadFrom s dr (pcRel s off)) := rfl

theorem exec_ldr (off : BitVec 6) :
    exec (.ldr dr base off) s = .next (loadFrom s dr (baseOff s base off)) := rfl

theorem exec_ldi :
    exec (.ldi dr off) s = .next (loadFrom (indirect s off).2 dr (indirect s off).1) := rfl

theorem exec_st : exec (.st sr off) s = .next (memWrite s (pcRel s off) (s.getReg sr)) := rfl

/-- The pointer read leaves the stored register alone. -/
theorem exec_sti :
    exec (.sti sr off) s =
      .next (memWrite (indirect s off).2 (indirect s off).1 (s.getReg sr)) := by
  rw [← memRead_getReg s (pcRel s off) sr]; rfl

end Meanings

/-! ## Reads of the device words -/

theorem memRead_kbsrAddr (s : State) :
    memRead s Config.kbsrAddr =
      (memPeek (keyboardPollAndLatch s) Config.kbsrAddr, keyboardPollAndLatch s) :=
  if_pos rfl

/-- A status read that finds no key. -/
theorem memRead_kbsrAddr_nil {s : State} (h : s.inQueue = []) :
    memRead s Config.kbsrAddr = (Config.kbsrIdle, memWrite s Config.kbsrAddr Config.kbsrIdle) := by
  rw [memRead_kbsrAddr, keyboardPollAndLatch_nil h, memPeek_memWrite_same]

/-- A status read that finds the key `c`. -/
theorem memRead_kbsrAddr_cons {s : State} {c : Byte} {q : List Byte} (h : s.inQueue = c :: q) :
    memRead s Config.kbsrAddr = (Config.kbsrReady,
      memWrite (memWrite (s.setInQueue q) Config.kbsrAddr Config.kbsrReady) Config.kbdrAddr
        (zextByte c)) := by
  rw [memRead_kbsrAddr, keyboardPollAndLatch_cons h,
    memPeek_memWrite_ne _ _ kbdrAddr_ne_kbsrAddr.symm, memPeek_memWrite_same]

/-- A read writes at most the two device words (R34). -/
theorem memRead_memSameBut (s : State) (a : Word) :
    MemSameBut [Config.kbsrAddr, Config.kbdrAddr] s (memRead s a).2 := by
  rcases memRead_cases s a with ⟨_, e⟩ | ⟨_, _, e⟩ | ⟨c, q, _, _, e⟩ <;> rw [e]
  · exact fun _ _ => rfl
  · exact memSameBut_memWrite _ (by simp)
  · exact (memSameBut_memWrite (s := s.setInQueue q) _ (by simp)).trans
      (memSameBut_memWrite _ (by simp))

theorem memRead_kbdrAddr (s : State) :
    memRead s Config.kbdrAddr = (memPeek s Config.kbdrAddr, s) :=
  memRead_of_ne kbdrAddr_ne_kbsrAddr

theorem toNat_zextByte (c : Byte) : (zextByte c).toNat = c.toNat :=
  BitVec.toNat_setWidth_of_le (by decide)

/-- Settles O18: the two branches of `MemRead`, the fetch, and the four meanings that
read with it. -/
theorem memReadRoutesThroughShim : Obligations.MemReadRoutesThroughShim := by
  unfold Obligations.MemReadRoutesThroughShim
  intro s a
  refine ⟨?_, fun ha => ?_, step_running, ?_, ?_, fun dr off b t hread => ?_,
    fun sr off b t hread => ?_⟩
  · rintro rfl; rw [memRead_kbsrAddr]; exact ⟨rfl, rfl⟩
  · rw [memRead_of_ne ha]; exact ⟨rfl, rfl⟩
  · rintro dr off rfl; exact exec_ld s dr off
  · rintro dr base off rfl; exact exec_ldr s dr base off
  · rw [exec_ldi, indirect, hread]; rfl
  · rw [exec_sti, indirect, hread]

/-- A status read makes a store to the status address beforehand unseen (R36). -/
theorem statusRead_after_store (s : State) (v : Word) :
    (memRead (memWrite s Config.kbsrAddr v) Config.kbsrAddr).1 = (memRead s Config.kbsrAddr).1 ∧
    MemSame (memRead s Config.kbsrAddr).2
      (memRead (memWrite s Config.kbsrAddr v) Config.kbsrAddr).2 := by
  cases hq : s.inQueue with
  | nil =>
    rw [memRead_kbsrAddr_nil hq, memRead_kbsrAddr_nil (s := memWrite s _ v) hq]
    exact ⟨rfl, memSame_memWrite_memWrite s _ _ _⟩
  | cons c q =>
    rw [memRead_kbsrAddr_cons hq, memRead_kbsrAddr_cons (s := memWrite s _ v) hq]
    exact ⟨rfl, memSame_memWrite (memSame_memWrite_memWrite (s.setInQueue q) _ _ _) _ _⟩

/-- Settles O19: the two status reads, what every read keeps, and the unseen store. -/
theorem statusReadPollsAndLatches : Obligations.StatusReadPollsAndLatches := by
  unfold Obligations.StatusReadPollsAndLatches
  rintro s _ rfl
  refine ⟨fun hq => ?_, fun c q hq => ?_, ⟨fun r => memRead_getReg s _ r, memRead_pc s _,
    memRead_cond s _, memRead_running s _, memRead_trace s _⟩, statusRead_after_store s⟩
  · rw [memRead_kbsrAddr_nil hq]
    exact ⟨rfl, memPeek_memWrite_same _ _ _, memSameBut_memWrite _ (by simp), hq⟩
  · have hframe := memRead_memSameBut s Config.kbsrAddr
    rw [memRead_kbsrAddr_cons hq] at hframe ⊢
    refine ⟨rfl, ?_, ?_, hframe, rfl⟩
    · rw [memPeek_memWrite_ne _ _ kbdrAddr_ne_kbsrAddr.symm, memPeek_memWrite_same]; rfl
    · rw [memPeek_memWrite_same, toNat_zextByte]

/-- Settles O20: a data read is a plain read, of what the last status read or store left there. -/
theorem dataReadIsInert : Obligations.DataReadIsInert := by
  unfold Obligations.DataReadIsInert
  intro s
  refine ⟨memRead_kbdrAddr s, fun c q hq => ?_, fun hq => ?_, fun v => ?_, fun a v ha => ?_⟩
  · rw [memRead_kbdrAddr, memRead_kbsrAddr_cons hq, memPeek_memWrite_same, toNat_zextByte]
  · rw [memRead_kbdrAddr, memRead_kbsrAddr_nil hq, memPeek_memWrite_ne _ _ kbdrAddr_ne_kbsrAddr]
  · rw [memRead_kbdrAddr, memPeek_memWrite_same]
  · rw [memRead_kbdrAddr, memPeek_memWrite_ne _ _ ha.symm]

/-! ## Stored code -/

/-- An offset of 0 names the incremented PC's own word. -/
theorem pcRel_zero {n : Nat} (s : State) : pcRel s (0 : BitVec n) = s.pc := by
  simp [pcRel, sext]

/-- A step away from the status address executes the stored word at PC. -/
theorem step_of_ne {s : State} (hrun : s.running = true) (hpc : s.pc ≠ Config.kbsrAddr) :
    step s = exec (decode (memPeek s s.pc)) (s.setPc (s.pc + 1)) := by
  rw [step_running hrun, fetch_of_ne hpc]

/-- A word stored at PC is what the next step executes. -/
theorem step_memWrite_pc {s : State} (hrun : s.running = true) (hpc : s.pc ≠ Config.kbsrAddr)
    (v : Word) :
    step (memWrite s s.pc v) = exec (decode v) ((memWrite s s.pc v).setPc (s.pc + 1)) := by
  rw [step_of_ne (s := memWrite s s.pc v) hrun hpc, memWrite_pc, memPeek_memWrite_same]

/-- Settles O29: the ST was not fetched by a poll, and its store is at the new PC. -/
theorem storedCodeRunsNext : Obligations.StoredCodeRunsNext := by
  unfold Obligations.StoredCodeRunsNext
  intro s sr hrun hst hne
  have hfetch : (fetch s).2 = s.setPc (s.pc + 1) := fetch_state_of_decode hst nofun nofun
  have htwo : s.pc + 2 = s.pc + 1 + 1 := by rw [BitVec.add_assoc]; rfl
  refine ⟨memWrite (s.setPc (s.pc + 1)) (s.pc + 1) (s.getReg sr), ?_, rfl, ?_⟩
  · rw [step_running hrun, hst, hfetch, exec_st, pcRel_zero]; rfl
  · rw [htwo]
    exact step_memWrite_pc (s := s.setPc (s.pc + 1)) hrun hne (s.getReg sr)

/-! ## The memory frame of every instruction -/

/-- The words that `MemRead`s at the listed addresses may write (R34). -/
def polledWords (as : List Word) : List Word :=
  if Config.kbsrAddr ∈ as then [Config.kbsrAddr, Config.kbdrAddr] else []

/-- The words that an instruction's body may write (R29). -/
def writtenWords (s : State) (i : Instr) : List Word :=
  (storeAddr s i).toList ++ polledWords (readAddrs s i)

/-- Reads away from the status address change nothing. -/
theorem afterReads_of_not_mem (s : State) {as : List Word} (h : Config.kbsrAddr ∉ as) :
    afterReads s as = s := by
  induction as with
  | nil => rfl
  | cons a as ih =>
    obtain ⟨ha, has⟩ := List.ne_and_not_mem_of_not_mem_cons h
    rw [afterReads, memRead_of_ne ha.symm]
    exact ih has

theorem afterReads_memSameBut (s : State) (as : List Word) :
    MemSameBut (polledWords as) s (afterReads s as) := by
  unfold polledWords
  split
  case isTrue =>
    exact afterReads_keeps (fun u a hu => hu.trans (memRead_memSameBut u a)) as fun _ _ => rfl
  case isFalse h => rw [afterReads_of_not_mem s h]; exact fun _ _ => rfl

theorem Effect.memSameBut {i : Instr} {s t : State} (h : Effect i s t) :
    MemSameBut (writtenWords s i) s t := by
  have hreads : MemSameBut (writtenWords s i) s (afterReads s (readAddrs s i)) :=
    (afterReads_memSameBut s _).mono (List.subset_append_right _ _)
  cases h with
  | dest => exact hreads
  | store a v haddr => exact hreads.trans (memSameBut_memWrite v (by simp [writtenWords, haddr]))
  | _ => exact fun _ _ => rfl

/-- No trap service writes memory, whichever way the term spells it. -/
theorem writtenWords_decodeTrap (s : State) (v : Byte) :
    writtenWords s (decodeTrap v) = writtenWords s (.trap v) := by
  unfold decodeTrap; split_ifs <;> rfl

theorem exec_memSameBut {i : Instr} {s t : State} (h : exec i s = .next t) :
    MemSameBut (writtenWords s i) s t := by
  cases i with
  | trap v =>
    rw [← writtenWords_decodeTrap]
    exact (exec_effect (decodeTrap_wellFormed v) ((exec_decodeTrap v s).trans h)).memSameBut
  | _ => exact (exec_effect rfl h).memSameBut

/-- Settles O48: the words that an instruction may write are the one it stores to and, after a
status read, the two device words. -/
theorem memoryFrameOfEveryInstruction : Obligations.MemoryFrameOfEveryInstruction := by
  unfold Obligations.MemoryFrameOfEveryInstruction
  intro i s t h k hstore hpoll
  refine exec_memSameBut h k fun a ha => ?_
  rcases List.mem_append.mp ha with ha | ha
  · exact hstore a (Option.mem_toList.mp ha)
  · unfold polledWords at ha
    split at ha
    case isFalse => cases ha
    case isTrue hread =>
      obtain ⟨hsrHi, hsrLo, hdrHi, hdrLo⟩ := hpoll hread
      rcases List.mem_pair.mp ha with rfl | rfl
      · exact ⟨hsrHi, hsrLo⟩
      · exact ⟨hdrHi, hdrLo⟩

end Sys2Proof.Machine
end

section
/-! SUPPORT. The family 30_encoding: the decoder and the encoder agree on the fields of every
instruction, the opcode map has one row for every word, and the image of an assembled text loads.

The key fact is `decode_eq_iff`: the words that decode to a well-formed instruction are those that
agree with its encoding outside its ignored bits. It is proved through `Instr.HasFields`, which lists
what the fields of R48 to R57 hold: the decoder side compares no bits, the encoder side compares no
opcodes. -/

namespace Sys2Proof

open Machine

/-! ## Words that agree on some fields -/

/-- A field of a word: its lowest bit and its length. -/
abbrev Field := Nat × Nat

/-- The 1s at the bits of a field. -/
def fieldMask (f : Field) : Word := (BitVec.allOnes f.2).setWidth 16 <<< f.1

/-- The 1s at the bits of every field listed. -/
def fieldsMask : List Field → Word
  | [] => 0
  | f :: fs => fieldMask f ||| fieldsMask fs

/-- The two words hold the same in every field listed. -/
def AgreeOn (fs : List Field) (w v : Word) : Prop :=
  ∀ f ∈ fs, w.extractLsb' f.1 f.2 = v.extractLsb' f.1 f.2

@[simp] theorem agreeOn_nil (w v : Word) : AgreeOn [] w v := List.forall_mem_nil _

@[simp] theorem agreeOn_cons {f : Field} {fs : List Field} {w v : Word} :
    AgreeOn (f :: fs) w v ↔ w.extractLsb' f.1 f.2 = v.extractLsb' f.1 f.2 ∧ AgreeOn fs w v :=
  List.forall_mem_cons

theorem getLsbD_fieldMask (f : Field) (k : Nat) :
    (fieldMask f).getLsbD k = decide (k < 16 ∧ f.1 ≤ k ∧ k < f.1 + f.2) := by
  rw [Bool.eq_iff_iff]
  simp only [fieldMask, BitVec.getLsbD_shiftLeft, BitVec.getLsbD_setWidth, BitVec.getLsbD_allOnes,
    Bool.and_eq_true, decide_eq_true_eq, Bool.not_eq_true', decide_eq_false_iff_not]
  omega

/-- Two words are equal under a mask iff they are equal at each bit of the mask. -/
theorem and_mask_eq_iff (w v m : Word) :
    w &&& m = v &&& m ↔ ∀ k, m.getLsbD k = true → w.getLsbD k = v.getLsbD k := by
  refine ⟨fun h k hk => ?_, fun h => BitVec.eq_of_getLsbD_eq fun k _ => ?_⟩
  · simpa [hk] using congrArg (BitVec.getLsbD · k) h
  · rw [BitVec.getLsbD_and, BitVec.getLsbD_and]
    cases hm : m.getLsbD k with
    | false => simp
    | true => rw [h k hm]

theorem and_fieldMask_eq_iff (w v : Word) (f : Field) :
    w &&& fieldMask f = v &&& fieldMask f ↔ w.extractLsb' f.1 f.2 = v.extractLsb' f.1 f.2 := by
  simp only [and_mask_eq_iff, getLsbD_fieldMask, decide_eq_true_eq]
  refine ⟨fun h => BitVec.eq_of_getLsbD_eq fun k hk => ?_, fun h k ⟨_, hlo, hhi⟩ => ?_⟩
  · simp only [BitVec.getLsbD_extractLsb', hk, decide_true, Bool.true_and]
    by_cases hin : f.1 + k < 16
    · exact h _ ⟨hin, by omega, by omega⟩
    · rw [BitVec.getLsbD_of_ge _ _ (by omega), BitVec.getLsbD_of_ge _ _ (by omega)]
  · have hbit := congrArg (BitVec.getLsbD · (k - f.1)) h
    simpa [show k - f.1 < f.2 by omega, show f.1 + (k - f.1) = k by omega] using hbit

theorem and_or_mask_eq_iff (w v m n : Word) :
    w &&& (m ||| n) = v &&& (m ||| n) ↔ w &&& m = v &&& m ∧ w &&& n = v &&& n := by
  simp only [and_mask_eq_iff, BitVec.getLsbD_or, Bool.or_eq_true, or_imp, forall_and]

/-- Equality under a mask of fields is equality of the fields. -/
theorem and_fieldsMask_eq_iff (w v : Word) (fs : List Field) :
    w &&& fieldsMask fs = v &&& fieldsMask fs ↔ AgreeOn fs w v := by
  induction fs with
  | nil => simp [fieldsMask]
  | cons f fs ih => rw [fieldsMask, and_or_mask_eq_iff, and_fieldMask_eq_iff, ih, agreeOn_cons]

/-- A flag bit as a field of length one. -/
theorem getLsbD_eq_iff (w : Word) {k : Nat} (hk : k < 16) (b : Bool) :
    w.getLsbD k = b ↔ w.extractLsb' k 1 = BitVec.ofBool b := by
  rw [BitVec.getLsbD_eq_getElem hk, BitVec.getElem_eq_extractLsb' w k hk]
  generalize w.extractLsb' k 1 = c
  revert b c
  decide

theorem immFlag_eq_iff (w : Word) (b : Bool) :
    immFlag w = b ↔ w.extractLsb' 5 1 = BitVec.ofBool b :=
  getLsbD_eq_iff w (by decide) b

theorem longFlag_eq_iff (w : Word) (b : Bool) :
    longFlag w = b ↔ w.extractLsb' 11 1 = BitVec.ofBool b :=
  getLsbD_eq_iff w (by decide) b

/-- A word whose 1s all lie in a mask. -/
theorem and_eq_self_of_and_not_eq_zero {c m : Word} (h : c &&& ~~~m = 0) : c &&& m = c :=
  calc c &&& m = c &&& m ||| c &&& ~~~m := by rw [h]; simp
    _ = c &&& (m ||| ~~~m) := BitVec.and_or_distrib_left.symm
    _ = c := by rw [BitVec.or_not_self, BitVec.and_allOnes]

/-! ## Registers and their numbers -/

@[simp] theorem Reg.ofBits_bits (r : Reg) : Reg.ofBits r.bits = r := by cases r <;> rfl

theorem Reg.bits_ofBits : ∀ b : BitVec 3, (Reg.ofBits b).bits = b := by decide

/-- A field names a register iff it holds the register's number. -/
theorem Reg.ofBits_eq_iff (b : BitVec 3) (r : Reg) : Reg.ofBits b = r ↔ b = r.bits :=
  ⟨fun h => h ▸ (Reg.bits_ofBits b).symm, fun h => h ▸ Reg.ofBits_bits r⟩

/-! ## Where the fields of an instruction stand -/

/-- The fields of R48 to R57, opcode and flags included: every bit that R61 does not list. -/
def Instr.fields : Instr → List Field
  | .br _ _ | .ld _ _ | .st _ _ | .ldi _ _ | .sti _ _ | .lea _ _ => [(12, 4), (9, 3), (0, 9)]
  | .addReg _ _ _ | .andReg _ _ _ => [(12, 4), (5, 1), (9, 3), (6, 3), (0, 3)]
  | .addImm _ _ _ | .andImm _ _ _ => [(12, 4), (5, 1), (9, 3), (6, 3), (0, 5)]
  | .ldr _ _ _ | .str _ _ _ => [(12, 4), (9, 3), (6, 3), (0, 6)]
  | .jsrr _ => [(12, 4), (11, 1), (6, 3)]
  | .jsr _ => [(12, 4), (11, 1), (0, 11)]
  | .not _ _ => [(12, 4), (9, 3), (6, 3)]
  | .jmp _ => [(12, 4), (6, 3)]
  | .rti | .res => [(12, 4)]
  | .getc | .out | .puts | .inp | .putsp | .halt | .trap _ => [(12, 4), (0, 8)]

/-- The ignored bits of R61 as fields. -/
def Instr.ignoredFields : Instr → List Field
  | .addReg _ _ _ | .andReg _ _ _ => [(3, 2)]
  | .not _ _ => [(0, 6)]
  | .jmp _ => [(9, 3), (0, 6)]
  | .jsrr _ => [(9, 2), (0, 6)]
  | .getc | .out | .puts | .inp | .putsp | .halt | .trap _ => [(8, 4)]
  | .rti | .res => [(0, 12)]
  | .br _ _ | .addImm _ _ _ | .ld _ _ | .st _ _ | .jsr _ | .andImm _ _ _ | .ldr _ _ _
  | .str _ _ _ | .ldi _ _ | .sti _ _ | .lea _ _ => []

/-- The fields that select an instruction's row of R47's table: the opcode, with R60's flag where the
opcode has two rows. -/
def Instr.rowFields : Instr → List Field
  | .addReg _ _ _ | .addImm _ _ _ | .andReg _ _ _ | .andImm _ _ _ => [(12, 4), (5, 1)]
  | .jsrr _ | .jsr _ => [(12, 4), (11, 1)]
  | .br _ _ | .ld _ _ | .st _ _ | .ldr _ _ _ | .str _ _ _ | .rti | .not _ _ | .ldi _ _ | .sti _ _
  | .jmp _ | .res | .lea _ _ | .getc | .out | .puts | .inp | .putsp | .halt | .trap _ => [(12, 4)]

theorem Instr.not_ignoredBits (i : Instr) : ~~~i.ignoredBits = fieldsMask i.fields := by
  cases i <;> simp only [Instr.ignoredBits, Instr.fields] <;> decide

theorem Instr.ignoredBits_eq (i : Instr) : i.ignoredBits = fieldsMask i.ignoredFields := by
  cases i <;> rfl

theorem Instr.row_mask (i : Instr) : i.row.mask = fieldsMask i.rowFields := by
  cases i <;> rfl

/-! ## What the fields of an instruction hold -/

/-- The word's fields are the instruction's operands, behind its opcode and flag. -/
def Instr.HasFields (w : Word) : Instr → Prop
  | .br nzp off => opcodeOf w = Config.opcBr ∧ nzpOf w = nzp ∧ pcoffset9Of w = off
  | .addReg dr sr1 sr2 => opcodeOf w = Config.opcAdd ∧ immFlag w = false ∧
      regAt11 w = dr ∧ regAt8 w = sr1 ∧ regAt2 w = sr2
  | .addImm dr sr1 imm => opcodeOf w = Config.opcAdd ∧ immFlag w = true ∧
      regAt11 w = dr ∧ regAt8 w = sr1 ∧ imm5Of w = imm
  | .ld dr off => opcodeOf w = Config.opcLd ∧ regAt11 w = dr ∧ pcoffset9Of w = off
  | .st sr off => opcodeOf w = Config.opcSt ∧ regAt11 w = sr ∧ pcoffset9Of w = off
  | .jsrr base => opcodeOf w = Config.opcJsr ∧ longFlag w = false ∧ regAt8 w = base
  | .jsr off => opcodeOf w = Config.opcJsr ∧ longFlag w = true ∧ pcoffset11Of w = off
  | .andReg dr sr1 sr2 => opcodeOf w = Config.opcAnd ∧ immFlag w = false ∧
      regAt11 w = dr ∧ regAt8 w = sr1 ∧ regAt2 w = sr2
  | .andImm dr sr1 imm => opcodeOf w = Config.opcAnd ∧ immFlag w = true ∧
      regAt11 w = dr ∧ regAt8 w = sr1 ∧ imm5Of w = imm
  | .ldr dr base off => opcodeOf w = Config.opcLdr ∧
      regAt11 w = dr ∧ regAt8 w = base ∧ offset6Of w = off
  | .str sr base off => opcodeOf w = Config.opcStr ∧
      regAt11 w = sr ∧ regAt8 w = base ∧ offset6Of w = off
  | .rti => opcodeOf w = Config.opcRti
  | .not dr sr => opcodeOf w = Config.opcNot ∧ regAt11 w = dr ∧ regAt8 w = sr
  | .ldi dr off => opcodeOf w = Config.opcLdi ∧ regAt11 w = dr ∧ pcoffset9Of w = off
  | .sti sr off => opcodeOf w = Config.opcSti ∧ regAt11 w = sr ∧ pcoffset9Of w = off
  | .jmp base => opcodeOf w = Config.opcJmp ∧ regAt8 w = base
  | .res => opcodeOf w = Config.opcRes
  | .lea dr off => opcodeOf w = Config.opcLea ∧ regAt11 w = dr ∧ pcoffset9Of w = off
  | .getc => opcodeOf w = Config.opcTrap ∧ trapvect8Of w = Config.trapGetc
  | .out => opcodeOf w = Config.opcTrap ∧ trapvect8Of w = Config.trapOut
  | .puts => opcodeOf w = Config.opcTrap ∧ trapvect8Of w = Config.trapPuts
  | .inp => opcodeOf w = Config.opcTrap ∧ trapvect8Of w = Config.trapIn
  | .putsp => opcodeOf w = Config.opcTrap ∧ trapvect8Of w = Config.trapPutsp
  | .halt => opcodeOf w = Config.opcTrap ∧ trapvect8Of w = Config.trapHalt
  | .trap vec => opcodeOf w = Config.opcTrap ∧ trapvect8Of w = vec

/-! ## The decoder reads the fields -/

/-- The decoder compares with fifteen opcodes; the one left is TRAP's. -/
theorem eq_opcTrap_of_ne {op : BitVec 4} (h : ∀ c ∈ [Config.opcBr, Config.opcAdd, Config.opcLd,
    Config.opcSt, Config.opcJsr, Config.opcAnd, Config.opcLdr, Config.opcStr, Config.opcRti,
    Config.opcNot, Config.opcLdi, Config.opcSti, Config.opcJmp, Config.opcRes, Config.opcLea],
    op ≠ c) : op = Config.opcTrap := by
  revert op; decide

theorem hasFields_ite {c : Prop} [Decidable c] {i j : Instr} {w : Word} (hi : c → i.HasFields w)
    (hj : ¬c → j.HasFields w) : (if c then i else j).HasFields w := by
  split
  · exact hi ‹c›
  · exact hj ‹¬c›

theorem hasFields_decodeTrap {w : Word} (h : opcodeOf w = Config.opcTrap) :
    (decodeTrap (trapvect8Of w)).HasFields w := by
  unfold decodeTrap
  exact hasFields_ite (⟨h, ·⟩) fun _ => hasFields_ite (⟨h, ·⟩) fun _ =>
    hasFields_ite (⟨h, ·⟩) fun _ => hasFields_ite (⟨h, ·⟩) fun _ =>
    hasFields_ite (⟨h, ·⟩) fun _ => hasFields_ite (⟨h, ·⟩) fun _ => ⟨h, rfl⟩

/-- Opcode by opcode: each branch of the decoder has compared the opcode and read the rest. -/
theorem hasFields_decode (w : Word) : (decode w).HasFields w := by
  unfold decode
  refine hasFields_ite (⟨·, rfl, rfl⟩) fun hbr => ?_
  refine hasFields_ite (fun hop => hasFields_ite (⟨hop, ·, rfl, rfl, rfl⟩)
    (⟨hop, eq_false_of_ne_true ·, rfl, rfl, rfl⟩)) fun hadd => ?_
  refine hasFields_ite (⟨·, rfl, rfl⟩) fun hld => ?_
  refine hasFields_ite (⟨·, rfl, rfl⟩) fun hst => ?_
  refine hasFields_ite (fun hop => hasFields_ite (⟨hop, ·, rfl⟩)
    (⟨hop, eq_false_of_ne_true ·, rfl⟩)) fun hjsr => ?_
  refine hasFields_ite (fun hop => hasFields_ite (⟨hop, ·, rfl, rfl, rfl⟩)
    (⟨hop, eq_false_of_ne_true ·, rfl, rfl, rfl⟩)) fun hand => ?_
  refine hasFields_ite (⟨·, rfl, rfl, rfl⟩) fun hldr => ?_
  refine hasFields_ite (⟨·, rfl, rfl, rfl⟩) fun hstr => ?_
  refine hasFields_ite id fun hrti => ?_
  refine hasFields_ite (⟨·, rfl, rfl⟩) fun hnot => ?_
  refine hasFields_ite (⟨·, rfl, rfl⟩) fun hldi => ?_
  refine hasFields_ite (⟨·, rfl, rfl⟩) fun hsti => ?_
  refine hasFields_ite (⟨·, rfl⟩) fun hjmp => ?_
  refine hasFields_ite id fun hres => ?_
  refine hasFields_ite (⟨·, rfl, rfl⟩) fun hlea => ?_
  exact hasFields_decodeTrap (eq_opcTrap_of_ne (by simp [*]))

theorem decodeTrap_of_not_service {v : Byte} (hv : serviceVectors.contains v = false) :
    decodeTrap v = .trap v := by
  simp_all [serviceVectors, decodeTrap]

/-- Opcode, flag and vector decide each comparison of the decoder. -/
theorem decode_of_hasFields {i : Instr} (hi : i.WellFormed) {w : Word} (h : i.HasFields w) :
    decode w = i := by
  unfold decode
  cases i with
  | br | ld | st | ldi | sti | lea | not =>
    obtain ⟨hop, rfl, rfl⟩ := h
    rw [hop]
    rfl
  | addReg | addImm | andReg | andImm =>
    obtain ⟨hop, hflag, rfl, rfl, rfl⟩ := h
    rw [hop, hflag]
    rfl
  | ldr | str =>
    obtain ⟨hop, rfl, rfl, rfl⟩ := h
    rw [hop]
    rfl
  | jsr | jsrr =>
    obtain ⟨hop, hflag, rfl⟩ := h
    rw [hop, hflag]
    rfl
  | jmp =>
    obtain ⟨hop, rfl⟩ := h
    rw [hop]
    rfl
  | rti | res =>
    rw [show opcodeOf w = _ from h]
    rfl
  | getc | out | puts | inp | putsp | halt =>
    obtain ⟨hop, hvec⟩ := h
    rw [hop, hvec]
    rfl
  | trap v =>
    obtain ⟨hop, rfl⟩ := h
    rw [hop]
    exact decodeTrap_of_not_service (not_mem_serviceVectors_of_wellFormed hi)

/-! ## The encoder writes the fields -/

/-- Each operand stands in the encoded word where its reader looks. -/
theorem agreeOn_encode_iff (i : Instr) (w : Word) :
    AgreeOn i.fields w (encode i) ↔ i.HasFields w := by
  cases i
  all_goals
    unfold encode
    simp only [Instr.fields, Instr.HasFields, agreeOn_cons]
    simp (disch := decide) only [BitVec.extractLsb'_append_eq_of_add_le,
      BitVec.extractLsb'_append_eq_of_le]
    simp [BitVec.extractLsb, opcodeOf, regAt11, regAt8, regAt2, Reg.ofBits_eq_iff, nzpOf, imm5Of,
      offset6Of, pcoffset9Of, pcoffset11Of, trapvect8Of, immFlag_eq_iff, longFlag_eq_iff]

theorem agreeOn_ignoredFields_encode (i : Instr) :
    AgreeOn i.ignoredFields (encode i) i.conventionalIgnored := by
  cases i with
  | br | addImm | ld | st | jsr | andImm | ldr | str | ldi | sti | lea => exact agreeOn_nil _ _
  | _ =>
    unfold encode
    simp only [Instr.ignoredFields, agreeOn_cons]
    simp (disch := decide) only [BitVec.extractLsb'_append_eq_of_add_le,
      BitVec.extractLsb'_append_eq_of_le]
    simp [Instr.conventionalIgnored]

/-! ## Decoding against encoding -/

/-- The words that decode to an instruction are its encoding up to the ignored bits. -/
theorem decode_eq_iff {i : Instr} (hi : i.WellFormed) (w : Word) :
    decode w = i ↔ w &&& ~~~i.ignoredBits = encode i &&& ~~~i.ignoredBits := by
  rw [i.not_ignoredBits, and_fieldsMask_eq_iff, agreeOn_encode_iff]
  exact ⟨fun h => h ▸ hasFields_decode w, decode_of_hasFields hi⟩

theorem decode_agrees (w : Word) :
    w &&& ~~~(decode w).ignoredBits = encode (decode w) &&& ~~~(decode w).ignoredBits :=
  (decode_eq_iff (decode_wellFormed w) w).mp rfl

/-- Settles O1: an encoding agrees with itself on every bit. -/
theorem decodeInvertsEncode : Obligations.DecodeInvertsEncode := by
  unfold Obligations.DecodeInvertsEncode
  intro i hi
  exact (decode_eq_iff hi (encode i)).mpr rfl

/-- Settles O4: both words agree with the encoding of what the first decodes to. -/
theorem ignoredBitsDoNotMatter : Obligations.IgnoredBitsDoNotMatter := by
  unfold Obligations.IgnoredBitsDoNotMatter
  intro w w' h
  exact (decode_eq_iff (decode_wellFormed w) w').mpr (h.trans (decode_agrees w))

/-! ## The rows of the opcode map -/

/-- The laws of `Laws.RowOf`, for every instruction at once. -/
theorem rowOf (i : Instr) : Laws.RowOf.Statement i := by
  cases i
  exacts [Laws.RowOf.br _ _, Laws.RowOf.addReg _ _ _, Laws.RowOf.addImm _ _ _, Laws.RowOf.ld _ _,
    Laws.RowOf.st _ _, Laws.RowOf.jsrr _, Laws.RowOf.jsr _, Laws.RowOf.andReg _ _ _,
    Laws.RowOf.andImm _ _ _, Laws.RowOf.ldr _ _ _, Laws.RowOf.str _ _ _, Laws.RowOf.rti,
    Laws.RowOf.not _ _, Laws.RowOf.ldi _ _, Laws.RowOf.sti _ _, Laws.RowOf.jmp _, Laws.RowOf.res,
    Laws.RowOf.lea _ _, Laws.RowOf.getc, Laws.RowOf.out, Laws.RowOf.puts, Laws.RowOf.inp,
    Laws.RowOf.putsp, Laws.RowOf.halt, Laws.RowOf.trap _]
theorem rowPattern_and_mask :
    ∀ row ∈ opcodeRows, row.pattern &&& row.mask = row.pattern := by decide

/-- No word matches two rows: under both masks their patterns differ. -/
theorem rows_disjoint : ∀ p ∈ opcodeRows, ∀ q ∈ opcodeRows,
    p.pattern &&& q.mask = q.pattern &&& p.mask → p = q := by decide

/-- The conventional values stand in the ignored bits, so the encoder emits nothing else there. -/
theorem encode_and_ignoredBits (i : Instr) :
    encode i &&& i.ignoredBits = i.conventionalIgnored := by
  obtain ⟨-, -, hconv⟩ := rowOf i
  calc encode i &&& i.ignoredBits = i.conventionalIgnored &&& i.ignoredBits := by
        rw [i.ignoredBits_eq, and_fieldsMask_eq_iff]
        exact agreeOn_ignoredFields_encode i
    _ = i.conventionalIgnored := and_eq_self_of_and_not_eq_zero hconv

/-- Settles O2: the kept bits by `decode_eq_iff`, the ignored ones by the encoder. -/
theorem encodeInvertsDecode : Obligations.EncodeInvertsDecode := by
  unfold Obligations.EncodeInvertsDecode
  intro w
  exact ⟨(decode_agrees w).symm, encode_and_ignoredBits _⟩

theorem agreeOn_rowFields {i : Instr} {w : Word} (h : i.HasFields w) :
    AgreeOn i.rowFields w i.row.pattern := by
  cases i with
  | addReg | addImm | andReg | andImm =>
    obtain ⟨hop, hflag, -⟩ := h
    rw [immFlag_eq_iff] at hflag
    refine agreeOn_cons.mpr ⟨hop.trans ?_, agreeOn_cons.mpr ⟨hflag.trans ?_, agreeOn_nil _ _⟩⟩ <;>
      simp only [Instr.row] <;> decide
  | jsrr | jsr =>
    obtain ⟨hop, hflag, -⟩ := h
    rw [longFlag_eq_iff] at hflag
    refine agreeOn_cons.mpr ⟨hop.trans ?_, agreeOn_cons.mpr ⟨hflag.trans ?_, agreeOn_nil _ _⟩⟩ <;>
      simp only [Instr.row] <;> decide
  | rti | res =>
    refine agreeOn_cons.mpr ⟨Eq.trans h ?_, agreeOn_nil _ _⟩
    simp only [Instr.row]; decide
  | _ =>
    obtain ⟨hop, -⟩ := h
    refine agreeOn_cons.mpr ⟨hop.trans ?_, agreeOn_nil _ _⟩
    simp only [Instr.row]; decide

theorem and_row_mask_decode (w : Word) : w &&& (decode w).row.mask = (decode w).row.pattern := by
  obtain ⟨hrow, -, -⟩ := rowOf (decode w)
  calc w &&& (decode w).row.mask = (decode w).row.pattern &&& (decode w).row.mask := by
        rw [Instr.row_mask, and_fieldsMask_eq_iff]
        exact agreeOn_rowFields (hasFields_decode w)
    _ = (decode w).row.pattern := rowPattern_and_mask _ hrow

/-- Settles O3: a word matches the row it decodes to, and no word matches two rows. -/
theorem everyWordSelectsItsRow : Obligations.EveryWordSelectsItsRow := by
  unfold Obligations.EveryWordSelectsItsRow
  intro w
  obtain ⟨hrow, -, -⟩ := rowOf (decode w)
  refine ⟨decode_wellFormed w, hrow, fun row hmem => ⟨fun hsel => ?_, fun e => ?_⟩⟩
  · apply rows_disjoint row hmem _ hrow
    rw [← hsel, ← and_row_mask_decode w, BitVec.and_assoc, BitVec.and_assoc,
      BitVec.and_comm row.mask]
  · rw [e]
    exact and_row_mask_decode w

/-- Settles O5: seven of the words are the decoder's own examples, the eighth is closed. -/
theorem sampleWordsDecode : Obligations.SampleWordsDecode := by
  unfold Obligations.SampleWordsDecode
  exact ⟨decode_br, decode_addImm, decode_andReg, decode_not, decode_ldr, decode_sti, by decide,
    decode_halt⟩

end Sys2Proof

namespace Sys2Proof.Machine

/-! ## The image of an assembled text -/

theorem wordsOfBytes_flatMap_imageBytes (ws : List Word) :
    wordsOfBytes (ws.flatMap imageBytes) = ws := by
  induction ws with
  | nil => rfl
  | cons w ws ih =>
    show wordOfBytes (highByte w) (lowByte w) :: wordsOfBytes (ws.flatMap imageBytes) = w :: ws
    rw [wordOfBytes_bytes, ih]

theorem loadImage_imageBytes {origin : Word} {ws : List Word}
    (hfit : origin.toNat + ws.length ≤ Config.memWords) (s : State) :
    loadImage (.bytes (imageBytes origin ++ ws.flatMap imageBytes)) s =
      .next (s.setMem (loadWords s.mem origin ws)) := by
  simp only [imageBytes, List.cons_append, List.nil_append, loadImage, wordOfBytes_bytes]
  rw [show wordsOfBytes _ = ws from wordsOfBytes_flatMap_imageBytes ws, if_pos hfit]

/-- Word `k` of a load that fits stands at the origin plus `k`. -/
theorem readWord_loadWords_add (m : Memory) {origin : Word} {ws : List Word}
    (hfit : origin.toNat + ws.length ≤ 65536) {k : Nat} (hk : k < ws.length) :
    (loadWords m origin ws).readWord (origin + BitVec.ofNat 16 k) = ws[k] := by
  have haddr : (origin + BitVec.ofNat 16 k).toNat = origin.toNat + k := by
    rw [BitVec.toNat_add, BitVec.toNat_ofNat]
    omega
  rw [readWord_loadWords ws m _ _ hfit, dif_pos (by omega)]
  simp [haddr]

/-- Settles O59: the loader reads back the words that the image spells, and stores them in order. -/
theorem assembledTextLoads : Obligations.AssembledTextLoads := by
  unfold Obligations.AssembledTextLoads
  intro origin ls ws s hasm hfit
  refine ⟨_, _, ?_, loadImage_imageBytes hfit s, fun k hk => readWord_loadWords_add s.mem hfit hk⟩
  rw [assemble, hasm, Option.map_some]

end Sys2Proof.Machine
end

section
/-! SUPPORT. The family 40_alu: ADD, AND and NOT are one `writeDest` each (R66 to R70), so flags and
frame are `writeDest`'s own and each instruction adds the value it computes. -/

namespace Sys2Proof.Machine

/-! ## What a write with flags leaves -/

theorem writeDest_getReg_same (s : State) (dr : Reg) (v : Word) :
    (writeDest s dr v).getReg dr = v := by
  rw [writeDest_getReg, if_pos rfl]

/-- The flags describe the stored value (R22, R71). -/
theorem flagsOf_writeDest (s : State) (dr : Reg) (v : Word) :
    FlagsOf ((writeDest s dr v).getReg dr) (writeDest s dr v).cond := by
  rw [writeDest_getReg_same, writeDest_cond]
  exact flagsOf_classify v

theorem onlyDestAndCond_writeDest (s : State) (dr : Reg) (v : Word) :
    OnlyDestAndCond dr s (writeDest s dr v) :=
  ⟨fun r hr => by rw [writeDest_getReg, if_neg hr], rfl, fun _ => rfl, rfl, rfl, rfl⟩

/-! ## Arithmetic with a sign-extended field -/

/-- Adding a sign-extended field adds its signed value modulo 65536. -/
theorem toNat_add_sext {n : Nat} (hn : n ≤ 16) (w : Word) (f : BitVec n) :
    ((w + sext f).toNat : Int) = ((w.toNat : Int) + f.toInt) % 65536 := by
  have hsigned := BitVec.toInt_eq_toNat_cond (sext f)
  rw [← toInt_sext hn, BitVec.toNat_add]
  split at hsigned <;> omega

/-- The field's own bits, and copies of its sign bit above them. -/
theorem getLsbD_sext {n : Nat} (hn : n ≤ 16) (f : BitVec n) {k : Nat} (hk : k < 16) :
    (sext f).getLsbD k = if k < n then f.getLsbD k else f.getLsbD (n - 1) := by
  rw [sext_eq_signExtend hn, BitVec.getLsbD_signExtend, BitVec.msb_eq_getLsbD_last,
    decide_eq_true hk, Bool.true_and]

/-! ## The meanings -/

theorem exec_addReg (dr sr1 sr2 : Reg) (s : State) :
    exec (.addReg dr sr1 sr2) s = .next (writeDest s dr (s.getReg sr1 + s.getReg sr2)) := rfl

theorem exec_addImm (dr sr1 : Reg) (imm : BitVec 5) (s : State) :
    exec (.addImm dr sr1 imm) s = .next (writeDest s dr (s.getReg sr1 + sext imm)) := rfl

theorem exec_andReg (dr sr1 sr2 : Reg) (s : State) :
    exec (.andReg dr sr1 sr2) s = .next (writeDest s dr (s.getReg sr1 &&& s.getReg sr2)) := rfl

theorem exec_andImm (dr sr1 : Reg) (imm : BitVec 5) (s : State) :
    exec (.andImm dr sr1 imm) s = .next (writeDest s dr (s.getReg sr1 &&& sext imm)) := rfl

theorem exec_not (dr sr : Reg) (s : State) :
    exec (.not dr sr) s = .next (writeDest s dr (~~~(s.getReg sr))) := rfl

/-! ## The obligations -/

/-- Settles O9: the value is the word sum of the two registers of the state before the write. -/
theorem addRegisterForm : Obligations.AddRegisterForm := by
  unfold Obligations.AddRegisterForm
  intro dr sr1 sr2 s
  refine ⟨_, exec_addReg dr sr1 sr2 s, ?_, flagsOf_writeDest .., onlyDestAndCond_writeDest ..⟩
  rw [writeDest_getReg_same]
  exact BitVec.toNat_add _ _

/-- Settles O10: a five-bit case of `toNat_add_sext`. -/
theorem addImmediateForm : Obligations.AddImmediateForm := by
  unfold Obligations.AddImmediateForm
  intro dr sr1 imm s
  refine ⟨_, exec_addImm dr sr1 imm s, ?_, flagsOf_writeDest .., onlyDestAndCond_writeDest ..⟩
  rw [writeDest_getReg_same]
  exact toNat_add_sext (by decide) _ _

/-- Settles O11: the word AND acts on each bit. -/
theorem andRegisterForm : Obligations.AndRegisterForm := by
  unfold Obligations.AndRegisterForm
  intro dr sr1 sr2 s
  refine ⟨_, exec_andReg dr sr1 sr2 s, fun k _ => ?_, flagsOf_writeDest ..,
    onlyDestAndCond_writeDest ..⟩
  rw [writeDest_getReg_same]
  exact BitVec.getLsbD_and

/-- Settles O12: the word AND acts on each bit, and `getLsbD_sext` gives the immediate's. -/
theorem andImmediateForm : Obligations.AndImmediateForm := by
  unfold Obligations.AndImmediateForm
  intro dr sr1 imm s
  refine ⟨_, exec_andImm dr sr1 imm s, fun k hk => ?_, flagsOf_writeDest ..,
    onlyDestAndCond_writeDest ..⟩
  rw [writeDest_getReg_same, BitVec.getLsbD_and, getLsbD_sext (by decide) imm hk]

/-- Settles O13: the complement of a word is its distance to 65535. -/
theorem notComplements : Obligations.NotComplements := by
  unfold Obligations.NotComplements
  intro dr sr s
  refine ⟨_, exec_not dr sr s, ?_, flagsOf_writeDest .., onlyDestAndCond_writeDest ..⟩
  rw [writeDest_getReg_same]
  exact BitVec.toNat_not

end Sys2Proof.Machine
end

section
/-! SUPPORT. The family 41_control: the four transfers write PC, JSR and JSRR also the link (R73 to
R77), and BR's word test read as "COND and the mask share a bit". -/

namespace Sys2Proof.Machine

/-! ## What a new PC and a link leave -/

theorem onlyPc_refl (s : State) : OnlyPc s s :=
  ⟨fun _ => rfl, rfl, fun _ => rfl, rfl, rfl, rfl⟩

theorem onlyPc_setPc (s : State) (target : Word) : OnlyPc s (s.setPc target) :=
  ⟨fun _ => rfl, rfl, fun _ => rfl, rfl, rfl, rfl⟩

theorem onlyRegAndPc_setReg_setPc (s : State) (r : Reg) (v target : Word) :
    OnlyRegAndPc r s ((s.setReg r v).setPc target) :=
  ⟨fun _ hr => State.getReg_setReg_ne s v hr, rfl, fun _ => rfl, rfl, rfl, rfl⟩

/-! ## BR's test -/

/-- The mask word has the mask's bits and no others. -/
theorem getLsbD_maskWord (nzp : BitVec 3) (k : Nat) :
    (maskWord nzp).getLsbD k = nzp.getLsbD k := by
  rw [maskWord, BitVec.getLsbD_setWidth]
  by_cases hk : k < 16
  · rw [decide_eq_true hk, Bool.true_and]
  · rw [BitVec.getLsbD_of_ge nzp k (by omega), Bool.and_false]

/-- R73's word test, bit by bit. -/
theorem cond_and_maskWord_eq_zero_iff (c : Word) (nzp : BitVec 3) :
    c &&& maskWord nzp = 0 ↔ ∀ k < 3, c.getLsbD k = false ∨ nzp.getLsbD k = false := by
  simp only [← Bool.and_eq_false_iff, ← getLsbD_maskWord, ← BitVec.getLsbD_and]
  constructor
  · intro h k _
    rw [h]
    exact BitVec.getLsbD_zero
  · intro h
    apply BitVec.eq_of_getLsbD_eq
    intro k _
    rw [BitVec.ofNat_eq_ofNat, BitVec.getLsbD_zero]
    by_cases hk : k < 3
    · exact h k hk
    · rw [BitVec.getLsbD_and, getLsbD_maskWord, BitVec.getLsbD_of_ge nzp k (by omega),
        Bool.and_false]

/-- Which letter of the mask each COND word selects. -/
theorem cond_and_nzpMask_eq_zero_iff (n z p : Bool) :
    (Config.flNeg &&& maskWord (nzpMask n z p) = 0 ↔ n = false) ∧
    (Config.flZro &&& maskWord (nzpMask n z p) = 0 ↔ z = false) ∧
    (Config.flPos &&& maskWord (nzpMask n z p) = 0 ↔ p = false) := by
  revert n z p
  decide

/-! ## The meanings -/

theorem exec_br_taken {nzp : BitVec 3} {s : State} (off : BitVec 9)
    (h : s.cond &&& maskWord nzp ≠ 0) :
    exec (.br nzp off) s = .next (s.setPc (pcRel s off)) := if_pos h

theorem exec_br_not_taken {nzp : BitVec 3} {s : State} (off : BitVec 9)
    (h : s.cond &&& maskWord nzp = 0) : exec (.br nzp off) s = .next s :=
  if_neg (not_not_intro h)

/-- BR when one flag decides: taken iff the flag is set. -/
theorem exec_br_of_iff {nzp : BitVec 3} {s : State} (off : BitVec 9) {b : Bool}
    (h : s.cond &&& maskWord nzp = 0 ↔ b = false) :
    exec (.br nzp off) s = .next (if b then s.setPc (pcRel s off) else s) := by
  cases b with
  | true => exact exec_br_taken off fun hzero => nomatch h.mp hzero
  | false => exact exec_br_not_taken off (h.mpr rfl)

theorem exec_jmp (base : Reg) (s : State) :
    exec (.jmp base) s = .next (s.setPc (s.getReg base)) := rfl

theorem exec_jsr (off : BitVec 11) (s : State) :
    exec (.jsr off) s = .next ((s.setReg .r7 s.pc).setPc (pcRel s off)) := rfl

theorem exec_jsrr (base : Reg) (s : State) :
    exec (.jsrr base) s =
      .next ((s.setReg .r7 s.pc).setPc ((s.setReg .r7 s.pc).getReg base)) := rfl

/-! ## The obligations -/

/-- Settles O14: a shared bit is a word test that is not 0, and `cond_and_nzpMask_eq_zero_iff` gives
the letter that decides on each code. -/
theorem branchTestsBitwise : Obligations.BranchTestsBitwise := by
  unfold Obligations.BranchTestsBitwise
  constructor
  · intro nzp off s
    have hshare := cond_and_maskWord_eq_zero_iff s.cond nzp
    by_cases htest : s.cond &&& maskWord nzp = 0
    · refine ⟨s, exec_br_not_taken off htest, ?_, fun _ => rfl, onlyPc_refl s⟩
      rintro ⟨k, hk, hcond, hmask⟩
      have hnone := hshare.mp htest k hk
      rw [hcond, hmask] at hnone
      exact absurd hnone (by decide)
    · exact ⟨_, exec_br_taken off htest, fun _ => toNat_add_sext (by decide) s.pc off,
        fun hnone => absurd (hshare.mpr hnone) htest, onlyPc_setPc ..⟩
  · intro n z p off s
    obtain ⟨hneg, hzro, hpos⟩ := cond_and_nzpMask_eq_zero_iff n z p
    refine ⟨fun h => exec_br_of_iff off (h ▸ hneg), fun h => exec_br_of_iff off (h ▸ hzro),
      fun h => exec_br_of_iff off (h ▸ hpos), fun h => exec_br_not_taken off ?_⟩
    rw [h]
    exact BitVec.zero_and

/-- Settles O15: the base is read in the state before PC is written. -/
theorem jmpGoesToBase : Obligations.JmpGoesToBase := by
  unfold Obligations.JmpGoesToBase
  intro base s
  exact ⟨_, exec_jmp base s, rfl, onlyPc_setPc ..⟩

/-- Settles O16: the link's write leaves the PC that the target is relative to. -/
theorem jsrLinksAndJumps : Obligations.JsrLinksAndJumps := by
  unfold Obligations.JsrLinksAndJumps
  intro off s
  exact ⟨_, exec_jsr off s, State.getReg_setReg_same s .r7 s.pc,
    toNat_add_sext (by decide) s.pc off, onlyRegAndPc_setReg_setPc ..⟩

/-- Settles O17: the base is read after the link's write (D12), so the two cases are those of
`State.getReg_setReg`. -/
theorem jsrrLinksAndJumps : Obligations.JsrrLinksAndJumps := by
  unfold Obligations.JsrrLinksAndJumps
  intro base s
  exact ⟨_, exec_jsrr base s, State.getReg_setReg_same s .r7 s.pc,
    State.getReg_setReg s .r7 base s.pc, onlyRegAndPc_setReg_setPc ..⟩

end Sys2Proof.Machine
end

section
/-! SUPPORT. The family 42_load_store: the four addressing modes, the three loads as one `loadFrom`
each and the three stores as one `memWrite` each (R78 to R85). -/

namespace Sys2Proof.Machine

/-! ## Effective addresses -/

/-- A PC-relative address with a field of any width up to the word's. -/
theorem toNat_pcRel {n : Nat} (hn : n ≤ 16) (s : State) (off : BitVec n) :
    ((pcRel s off).toNat : Int) = ((s.pc.toNat : Int) + off.toInt) % 65536 :=
  toNat_add_sext hn s.pc off

theorem toNat_baseOff (s : State) (base : Reg) (off : BitVec 6) :
    ((baseOff s base off).toNat : Int) = (((s.getReg base).toNat : Int) + off.toInt) % 65536 :=
  toNat_add_sext (by decide) (s.getReg base) off

theorem indirect_of_ne {s : State} {off : BitVec 9} (h : pcRel s off ≠ Config.kbsrAddr) :
    indirect s off = (memPeek s (pcRel s off), s) :=
  memRead_of_ne h

/-- Settles O7: every address is a word plus a sign-extended field, `toNat_add_sext`. -/
theorem effectiveAddressesWrap : Obligations.EffectiveAddressesWrap := by
  unfold Obligations.EffectiveAddressesWrap
  intro s
  exact ⟨toNat_pcRel (by decide) s, toNat_pcRel (by decide) s, toNat_baseOff s, fun _ => rfl⟩

/-! ## What a load leaves -/

section Load

variable (s : State) (dr : Reg) (ea : Word)

theorem loadedFrom_loadFrom : LoadedFrom s dr ea (loadFrom s dr ea) :=
  ⟨writeDest_getReg_same .., flagsOf_writeDest .., onlyDestAndCond_writeDest ..⟩

variable {s ea}

/-- Off the status address a load is a plain read. -/
theorem loadFrom_of_ne (h : ea ≠ Config.kbsrAddr) :
    (loadFrom s dr ea).getReg dr = memPeek s ea ∧ OnlyDestAndCond dr s (loadFrom s dr ea) := by
  rw [loadFrom, memRead_of_ne h]
  exact ⟨writeDest_getReg_same .., onlyDestAndCond_writeDest ..⟩

variable {dr} {t : State}

/-- What a load keeps at any address: a poll reaches only memory and the queue. -/
theorem LoadedFrom.frame (h : LoadedFrom s dr ea t) :
    RegsSameBut dr s t ∧ t.pc = s.pc ∧ t.running = s.running ∧ t.trace = s.trace := by
  obtain ⟨-, -, hregs, hpc, -, hrun, -, htrace⟩ := h
  simpa [RegsSameBut] using And.intro hregs (And.intro hpc (And.intro hrun htrace))

end Load

/-! ## What a store leaves -/

theorem onlyWord_memWrite (s : State) (a v : Word) : OnlyWord a s (memWrite s a v) := by
  obtain ⟨-, -, hframe⟩ := storeIsDirect s a v
  exact hframe

/-! ## The meanings not yet stated -/

theorem exec_lea (dr : Reg) (off : BitVec 9) (s : State) :
    exec (.lea dr off) s = .next (writeDest s dr (pcRel s off)) := rfl

theorem exec_str (sr base : Reg) (off : BitVec 6) (s : State) :
    exec (.str sr base off) s = .next (memWrite s (baseOff s base off) (s.getReg sr)) := rfl

/-! ## The loads and LEA -/

/-- Settles O22: LD is `loadFrom` at the PC-relative address. -/
theorem ldLoadsPcRelative : Obligations.LdLoadsPcRelative := by
  unfold Obligations.LdLoadsPcRelative
  intro dr off s
  exact ⟨_, exec_ld s dr off, loadedFrom_loadFrom .., loadFrom_of_ne dr⟩

/-- Settles O23: LDI is `loadFrom` through the pointer, in the state that the pointer's read leaves. -/
theorem ldiLoadsThroughPointer : Obligations.LdiLoadsThroughPointer := by
  unfold Obligations.LdiLoadsThroughPointer
  intro dr off s
  have hload := loadedFrom_loadFrom (indirect s off).2 dr (indirect s off).1
  refine ⟨_, exec_ldi s dr off, hload, fun hne hptr => ?_, ?_⟩
  · rw [indirect_of_ne hne]
    exact loadFrom_of_ne dr hptr
  · simpa [RegsSameBut, indirect] using hload.frame

/-- Settles O24: LDR is `loadFrom` at the base-plus-offset address of the state before the write. -/
theorem ldrLoadsBaseOffset : Obligations.LdrLoadsBaseOffset := by
  unfold Obligations.LdrLoadsBaseOffset
  intro dr base off s
  exact ⟨_, exec_ldr s dr base off, loadedFrom_loadFrom .., loadFrom_of_ne dr⟩

/-- Settles O25: LEA is a write with flags of the address itself. -/
theorem leaComputesAddress : Obligations.LeaComputesAddress := by
  unfold Obligations.LeaComputesAddress
  intro dr off s
  refine ⟨_, exec_lea dr off s, ?_, flagsOf_writeDest .., onlyDestAndCond_writeDest ..⟩
  rw [writeDest_getReg_same]
  exact toNat_pcRel (by decide) s off

/-! ## The stores -/

/-- Settles O26: ST is one store at the PC-relative address. -/
theorem stStoresPcRelative : Obligations.StStoresPcRelative := by
  unfold Obligations.StStoresPcRelative
  intro sr off s
  exact ⟨_, exec_st s sr off, memPeek_memWrite_same .., onlyWord_memWrite ..⟩

/-- Settles O27: STI is one store in the state that the pointer's read leaves. -/
theorem stiStoresThroughPointer : Obligations.StiStoresThroughPointer := by
  unfold Obligations.StiStoresThroughPointer
  intro sr off s
  refine ⟨_, exec_sti s sr off, memPeek_memWrite_same .., onlyWord_memWrite .., fun hne => ?_,
    memRead_getReg s _, memRead_pc s _, memRead_cond s _, memRead_running s _, memRead_trace s _⟩
  rw [indirect_of_ne hne]
  exact ⟨rfl, onlyWord_memWrite ..⟩

/-- Settles O28: STR is one store at the base-plus-offset address. -/
theorem strStoresBaseOffset : Obligations.StrStoresBaseOffset := by
  unfold Obligations.StrStoresBaseOffset
  intro sr base off s
  exact ⟨_, exec_str sr base off s, memPeek_memWrite_same .., onlyWord_memWrite ..⟩

end Sys2Proof.Machine
end

section
/-! SUPPORT. The family 43_trap_system: what PUTS and PUTSP write or when they hang, what the other
services leave, and the TRAP words and reserved opcodes that do nothing (R86 to R97). -/

namespace Sys2Proof.Machine

/-! ## What the services leave alone -/

theorem onlyTrace_emit (s : State) (evs : List OutEvent) : OnlyTrace s (s.emit evs) :=
  ⟨fun _ => rfl, rfl, rfl, fun _ => rfl, rfl, rfl⟩

section OnlyR0

variable {s u : State}

theorem onlyR0_refl (s : State) : OnlyR0 s s := ⟨fun _ _ => rfl, rfl, rfl, fun _ => rfl, rfl⟩

theorem OnlyR0.setInQueue (h : OnlyR0 s u) (q : List Byte) : OnlyR0 s (u.setInQueue q) := h

theorem OnlyR0.emit (h : OnlyR0 s u) (evs : List OutEvent) : OnlyR0 s (u.emit evs) := h

theorem OnlyR0.setReg (h : OnlyR0 s u) (v : Word) : OnlyR0 s (u.setReg .r0 v) := by
  obtain ⟨hregs, hrest⟩ := h
  exact ⟨fun r hr => (State.getReg_setReg_ne u v hr).trans (hregs r hr), hrest⟩

end OnlyR0

/-! ## The scans that meet a terminator -/

/-- Up to the first zero word, PUTS scans the low byte of each word. -/
theorem scanPuts_of_first_zero {m : Memory} {d fuel : Nat} {a : Word} (hfuel : d < fuel)
    (hne : ∀ k < d, m.readWord (a + BitVec.ofNat 16 k) ≠ 0)
    (hzero : m.readWord (a + BitVec.ofNat 16 d) = 0) :
    scanPuts m fuel a =
      some ((List.range d).map fun k => lowByte (m.readWord (a + BitVec.ofNat 16 k))) := by
  induction fuel generalizing a d with
  | zero => omega
  | succ fuel ih =>
    match d with
    | 0 =>
      rw [BitVec.add_zero] at hzero
      exact scanPuts_stop hzero
    | d + 1 =>
      rw [Nat.forall_lt_succ_left, BitVec.add_zero] at hne
      obtain ⟨hfirst, hrest⟩ := hne
      simp only [← succ_add_ofNat] at hrest hzero
      have hscan := ih (by omega) hrest hzero
      simp only [succ_add_ofNat] at hscan
      rw [scanPuts_step hfirst, hscan, List.range_succ_eq_map]
      simp [Function.comp_def]

section PackedString

variable (s : State) (a : Word)

theorem packedByte_zero : packedByte s a 0 = lowByte (s.mem.readWord a) := by
  simp [packedByte, memPeek]

theorem packedByte_one : packedByte s a 1 = highByte (s.mem.readWord a) := by
  simp [packedByte, memPeek]

/-- Two bytes further on in a packed string is one word further on in memory. -/
theorem packedByte_add_two (j : Nat) : packedByte s a (j + 2) = packedByte s (a + 1) j := by
  simp only [packedByte, Nat.add_mod_right, Nat.add_div_right j two_pos, succ_add_ofNat]

end PackedString

/-- Up to the first zero byte, PUTSP scans the packed string. -/
theorem scanPutsp_of_first_zero {s : State} {n fuel : Nat} {a : Word} (hfuel : n < 2 * fuel)
    (hne : ∀ j < n, packedByte s a j ≠ 0) (hzero : packedByte s a n = 0) :
    scanPutsp s.mem fuel a = some ((List.range n).map (packedByte s a)) := by
  induction fuel generalizing a n with
  | zero => omega
  | succ fuel ih =>
    match n with
    | 0 =>
      rw [packedByte_zero] at hzero
      exact scanPutsp_stop_low hzero
    | 1 =>
      have hlow := hne 0 one_pos
      rw [packedByte_zero] at hlow
      rw [packedByte_one] at hzero
      rw [scanPutsp_stop_high hlow hzero, ← packedByte_zero]
      rfl
    | n + 2 =>
      have hlow := hne 0 (by omega)
      have hhigh := hne 1 (by omega)
      have hrest : ∀ j < n, packedByte s (a + 1) j ≠ 0 := fun j hj => by
        rw [← packedByte_add_two]
        exact hne (j + 2) (by omega)
      rw [packedByte_add_two] at hzero
      rw [packedByte_zero] at hlow
      rw [packedByte_one] at hhigh
      rw [scanPutsp_step hlow hhigh, ih (by omega) hrest hzero, List.range_succ_eq_map,
        List.range_succ_eq_map]
      simp [packedByte_zero, packedByte_one, packedByte_add_two, Function.comp_def]

/-! ## PUTS and PUTSP -/

theorem writeScanned_some (s : State) (bs : List Byte) :
    writeScanned s (some bs) = .next (s.emit (bs.map .conOut ++ [.conFlush])) := by
  rcases writeScanned_cases s (some bs) with ⟨_, ⟨⟩, e⟩ | ⟨⟨⟩, _⟩
  exact e

theorem writeScanned_eq_fault_iff (s : State) (o : Option (List Byte)) :
    writeScanned s o = .fault .unterminatedScan ↔ o = none := by
  cases o with
  | none => exact iff_of_true rfl rfl
  | some bs => rw [writeScanned_some]; exact iff_of_false nofun nofun

theorem exec_puts (s : State) :
    exec .puts s = writeScanned s (scanPuts s.mem Config.memWords (s.getReg .r0)) := rfl

theorem exec_putsp (s : State) :
    exec .putsp s = writeScanned s (scanPutsp s.mem Config.memWords (s.getReg .r0)) := rfl

/-- Settles O34: the scan finds the `d` words, `writeScanned` writes their low bytes. -/
theorem putsWritesUpToZeroWord : Obligations.PutsWritesUpToZeroWord := by
  unfold Obligations.PutsWritesUpToZeroWord
  intro s d hd hne hzero
  have hscan := scanPuts_of_first_zero (m := s.mem) (fuel := Config.memWords) hd hne hzero
  refine ⟨_, by rw [exec_puts, hscan, writeScanned_some], ?_, onlyTrace_emit ..⟩
  rw [State.emit_trace, List.map_map, List.append_assoc]
  rfl

/-- Settles O36: the scan finds the `n` bytes, `writeScanned` writes them. -/
theorem putspWritesUpToZeroByte : Obligations.PutspWritesUpToZeroByte := by
  unfold Obligations.PutspWritesUpToZeroByte
  intro s n hn hne hzero
  have hscan := scanPutsp_of_first_zero (fuel := Config.memWords) hn hne hzero
  refine ⟨_, by rw [exec_putsp, hscan, writeScanned_some], ?_, onlyTrace_emit ..⟩
  rw [State.emit_trace, List.map_map, List.append_assoc]
  rfl

/-- Settles O37: a service hangs iff its scan finds nothing, and the `memWords` words it scans are
all of memory. -/
theorem scansHangWithoutTerminator : Obligations.ScansHangWithoutTerminator := by
  unfold Obligations.ScansHangWithoutTerminator
  intro s
  constructor
  · rw [exec_puts, writeScanned_eq_fault_iff, scanPuts_eq_none_iff]
    exact (forall_addr_iff_forall_offset (memPeek s · ≠ 0) _).symm
  · rw [exec_putsp, writeScanned_eq_fault_iff, scanPutsp_eq_none_iff]
    exact (forall_addr_iff_forall_offset
      (fun b => lowByte (memPeek s b) ≠ 0 ∧ highByte (memPeek s b) ≠ 0) _).symm

/-! ## The dispatcher -/

/-- A TRAP term does what the decoder makes of its vector. -/
theorem exec_trap_of_decodeTrap {v : Byte} {i : Instr} (h : decodeTrap v = i) (s : State) :
    exec (.trap v) s = exec i s := by
  rw [← h, exec_decodeTrap]

/-- The six service vectors are 0x20 to 0x25 (R57), so no other has a service (R94). -/
theorem not_service_of_toNat {v : Byte} (h : v.toNat < 0x20 ∨ 0x25 < v.toNat) :
    serviceVectors.contains v = false := by
  have hrange : ∀ u ∈ serviceVectors, 0x20 ≤ u.toNat ∧ u.toNat ≤ 0x25 := by decide
  rw [List.contains_eq_mem, decide_eq_false_iff_not]
  intro hmem
  have := hrange v hmem
  omega

theorem exec_trap_of_not_service {v : Byte} (h : serviceVectors.contains v = false) (s : State) :
    exec (.trap v) s = .next s :=
  trapDispatch_of_not_service h s

/-- No service writes R7, R86 and R97. -/
theorem writtenReg_decodeTrap_ne_r7 (v : Byte) : writtenReg (decodeTrap v) ≠ some .r7 := by
  unfold decodeTrap
  split_ifs <;> exact nofun

/-- What no TRAP writes, whatever its vector (R86, R97). -/
theorem exec_trap_frame {v : Byte} {s t : State} (h : exec (.trap v) s = .next t) :
    t.pc = s.pc ∧ t.cond = s.cond ∧ t.getReg .r7 = s.getReg .r7 ∧ MemSame s t := by
  have heffect : Effect (decodeTrap v) s t :=
    exec_effect (decodeTrap_wellFormed v) ((exec_decodeTrap v s).trans h)
  exact ⟨heffect.pc (isTransfer_decodeTrap v), heffect.cond (flagDest_decodeTrap v),
    heffect.getReg (writtenReg_decodeTrap_ne_r7 v), fun k => exec_memSameBut h k nofun⟩

/-- Settles O30: the decoder's reading of the vector, and the frame of every TRAP. -/
theorem trapDispatchesOnVector : Obligations.TrapDispatchesOnVector := by
  unfold Obligations.TrapDispatchesOnVector
  intro v s
  refine ⟨?_, ?_, ?_, ?_, ?_, ?_, fun h => exec_trap_of_not_service (not_service_of_toNat h) s,
    fun t => exec_trap_frame⟩
  all_goals
    rintro rfl
    exact exec_trap_of_decodeTrap rfl s

/-! ## The keyboard services -/

theorem exec_getc_nil {s : State} (h : s.inQueue = []) : exec .getc s = .fault .awaitingInput := by
  rw [exec, execGetc, serviceGetc, keyRead_nil h]

theorem exec_getc_cons {s : State} {c : Byte} {q : List Byte} (h : s.inQueue = c :: q) :
    exec .getc s = .next ((s.setInQueue q).setReg .r0 (zextByte c)) := by
  rw [exec, execGetc, serviceGetc, keyRead_cons h]

/-- A held IN has not shown its prompt yet (log 23). -/
theorem exec_inp_nil {s : State} (h : s.inQueue = []) : exec .inp s = .fault .awaitingInput := by
  rw [exec, execIn, serviceIn, keyReadEcho_nil (s := conOutAll s _) h]

/-- IN is prompt, key, echo and R0, in this order (R91, D17). -/
theorem exec_inp_cons {s : State} {c : Byte} {q : List Byte} (h : s.inQueue = c :: q) :
    exec .inp s = .next ((conOut ((conOutAll s Config.inPrompt).setInQueue q) c).setReg .r0
      (zextByte c)) := by
  rw [exec, execIn, serviceIn, keyReadEcho_cons (s := conOutAll s _) h]

/-- Settles O31: GETC takes the head of the queue and writes R0. -/
theorem getcReadsOneKey : Obligations.GetcReadsOneKey := by
  unfold Obligations.GetcReadsOneKey
  intro s c q hq
  exact ⟨_, exec_getc_cons hq, toNat_zextByte c, rfl, rfl,
    ((onlyR0_refl s).setInQueue q).setReg _⟩

/-- Settles O32: both services read an empty queue. -/
theorem inputServicesHold : Obligations.InputServicesHold := by
  unfold Obligations.InputServicesHold
  exact fun s hq => ⟨exec_getc_nil hq, exec_inp_nil hq⟩

/-- Settles O35: the prompt and the echo are two trace updates, around the read of the key. -/
theorem inPromptsReadsAndEchoes : Obligations.InPromptsReadsAndEchoes := by
  unfold Obligations.InPromptsReadsAndEchoes
  intro s c q hq
  exact ⟨_, exec_inp_cons hq, toNat_zextByte c, rfl, rfl,
    ((((onlyR0_refl s).emit _).setInQueue q).emit _).setReg _⟩

/-! ## OUT and HALT -/

theorem toNat_lowByte (v : Word) : (lowByte v).toNat = v.toNat % 256 := by
  simp [lowByte]

/-- Settles O33: OUT is one trace update. -/
theorem outWritesLowByte : Obligations.OutWritesLowByte := by
  unfold Obligations.OutWritesLowByte
  intro s
  exact ⟨_, serviceOut_eq s, ⟨_, toNat_lowByte _, rfl⟩, onlyTrace_emit ..⟩

theorem exec_halt (s : State) : exec .halt s = .next (s.setRunning false) := rfl

/-- Settles O38: HALT is one write of RUNNING. -/
theorem haltStopsTheMachine : Obligations.HaltStopsTheMachine := by
  unfold Obligations.HaltStopsTheMachine
  intro s
  exact ⟨_, exec_halt s, rfl, fun _ => rfl, rfl, rfl, fun _ => rfl, rfl, rfl⟩

/-! ## Words that do nothing -/

theorem decode_trap_of_not_service {w : Word} (hop : opcodeOf w = Config.opcTrap)
    (hvec : serviceVectors.contains (lowByte w) = false) : decode w = .trap (lowByte w) :=
  decode_of_hasFields (by rw [Instr.WellFormed, Instr.wellFormed, hvec]; rfl) ⟨hop, rfl⟩

/-- Settles O39: the vector has no service, and the fetch of a TRAP word did not poll. -/
theorem undefinedVectorIsNoOp : Obligations.UndefinedVectorIsNoOp := by
  unfold Obligations.UndefinedVectorIsNoOp
  refine ⟨fun v s h => exec_trap_of_not_service (not_service_of_toNat h) s,
    fun s hrun hop hrange => ?_⟩
  rw [← fetch_word] at hop hrange
  have hvec := not_service_of_toNat hrange
  have hdecode : decode (fetch s).1 = .trap (lowByte (fetch s).1) :=
    decode_trap_of_not_service hop hvec
  rw [step_running hrun, hdecode, exec_trap_of_not_service hvec,
    fetch_state_of_decode hdecode nofun nofun]

theorem exec_rti (s : State) : exec .rti s = .next s := rfl

theorem exec_res (s : State) : exec .res s = .next s := rfl

/-- Settles O40: the opcode alone decodes, and the state is the fetched one. -/
theorem reservedOpcodesAreNoOps : Obligations.ReservedOpcodesAreNoOps := by
  unfold Obligations.ReservedOpcodesAreNoOps
  refine ⟨fun s => ⟨exec_rti s, exec_res s⟩, fun s hrun hop => ?_⟩
  rw [step_running hrun, fetch_word]
  rcases hop with hop | hop
  · rw [decode_of_hasFields (i := .rti) rfl hop]
    exact exec_rti _
  · rw [decode_of_hasFields (i := .res) rfl hop]
    exact exec_res _

end Sys2Proof.Machine
end

section
/-! SUPPORT. The family 70_reset_and_hazards: a load replaces memory and touches nothing else (R109),
several images load one after another (R110), and the start-up then sets PC and RUNNING (R107). -/

namespace Sys2Proof.Machine

/-! ## One image -/

/-- The origin and the word count as R108 and R111 (b) put them, in bytes. -/
theorem origin_add_length_eq (b0 b1 : Byte) (rest : List Byte) :
    (wordOfBytes b0 b1).toNat + (wordsOfBytes rest).length =
      b0.toNat * 256 + b1.toNat + rest.length / 2 := by
  rw [toNat_wordOfBytes, length_wordsOfBytes]

theorem loadImage_of_fits {b0 b1 : Byte} {rest : List Byte}
    (hfit : b0.toNat * 256 + b1.toNat + rest.length / 2 ≤ 65536) (s : State) :
    loadImage (.bytes (b0 :: b1 :: rest)) s =
      .next (s.setMem (loadWords s.mem (wordOfBytes b0 b1) (wordsOfBytes rest))) := by
  rw [← origin_add_length_eq] at hfit
  exact if_pos hfit

theorem loadImage_of_overflow {b0 b1 : Byte} {rest : List Byte}
    (hover : 65536 < b0.toNat * 256 + b1.toNat + rest.length / 2) (s : State) :
    loadImage (.bytes (b0 :: b1 :: rest)) s = .refused .imageOverflow := by
  rw [← origin_add_length_eq] at hover
  exact if_neg (Nat.not_le.mpr hover)

theorem loadImage_of_short {bs : List Byte} (hshort : bs.length < 2) (s : State) :
    loadImage (.bytes bs) s = .next s :=
  match bs, hshort with
  | [], _ => rfl
  | [_], _ => rfl

/-- An image that loads changes memory alone, and in the same way from any state with that memory. -/
theorem exists_loadImage_eq_setMem {f : ImageFile} {s t : State} (h : loadImage f s = .next t) :
    ∃ m, t = s.setMem m ∧ ∀ s' : State, s'.mem = s.mem → loadImage f s' = .next (s'.setMem m) := by
  rcases f with _ | ⟨_ | ⟨b0, _ | ⟨b1, rest⟩⟩⟩
  case unreadable => cases h
  case bytes.nil | bytes.cons.nil =>
    cases h
    exact ⟨s.mem, rfl, fun s' hmem => hmem ▸ rfl⟩
  case bytes.cons.cons =>
    rcases Nat.lt_or_ge 65536 (b0.toNat * 256 + b1.toNat + rest.length / 2) with hover | hfit
    · rw [loadImage_of_overflow hover] at h
      cases h
    · rw [loadImage_of_fits hfit] at h
      cases h
      exact ⟨_, rfl, fun s' hmem => hmem ▸ loadImage_of_fits hfit s'⟩

/-- Settles O56: the words of the image by `readWord_loadWords`, inside the loaded range and out. -/
theorem imageLoadPlacesWords : Obligations.ImageLoadPlacesWords := by
  unfold Obligations.ImageLoadPlacesWords
  intro s b0 b1 rest hfit
  have horigin := toNat_wordOfBytes b0 b1
  have hlen := length_wordsOfBytes rest
  have hwords : (wordOfBytes b0 b1).toNat + (wordsOfBytes rest).length ≤ 65536 := by
    rwa [origin_add_length_eq]
  refine ⟨_, loadImage_of_fits hfit s, fun k hk => ?_, fun a ha => ?_,
    fun _ => rfl, rfl, rfl, rfl, rfl, rfl⟩
  · rw [← horigin, BitVec.ofNat_add, BitVec.ofNat_toNat, BitVec.setWidth_eq, memPeek,
      State.setMem_mem, readWord_loadWords_add s.mem hwords (by omega),
      getElem_wordsOfBytes rest k hk, toNat_wordOfBytes]
  · rw [memPeek, State.setMem_mem, readWord_loadWords _ _ _ _ hwords, dif_neg (by omega), memPeek]

/-! ## Several images -/

section Images

variable {f : ImageFile} {fs gs : List ImageFile} {s t u : State}

theorem loadImages_cons_of_next (h : loadImage f s = .next u) :
    loadImages (f :: fs) s = loadImages fs u := by
  rw [loadImages, h]

/-- A list loads when its first image does and the others do on the state that one leaves. -/
theorem loadImages_cons_eq_next_iff :
    loadImages (f :: fs) s = .next t ↔ ∃ u, loadImage f s = .next u ∧ loadImages fs u = .next t := by
  refine ⟨fun h => ?_, fun ⟨u, hf, hfs⟩ => (loadImages_cons_of_next hf).trans hfs⟩
  cases hf : loadImage f s with
  | next u => exact ⟨u, rfl, loadImages_cons_of_next hf ▸ h⟩
  | fault r => rw [loadImages, hf] at h; cases h
  | refused r => rw [loadImages, hf] at h; cases h

theorem loadImages_append_of_next (h : loadImages fs s = .next t) :
    loadImages (fs ++ gs) s = loadImages gs t := by
  induction fs generalizing s with
  | nil => cases h; rfl
  | cons f fs ih =>
    obtain ⟨u, hf, hfs⟩ := loadImages_cons_eq_next_iff.mp h
    exact (loadImages_cons_of_next hf).trans (ih hfs)

theorem exists_loadImages_of_append (h : loadImages (fs ++ gs) s = .next t) :
    ∃ u, loadImages fs s = .next u := by
  induction fs generalizing s with
  | nil => exact ⟨s, rfl⟩
  | cons f fs ih =>
    obtain ⟨v, hf, hfs⟩ := loadImages_cons_eq_next_iff.mp h
    obtain ⟨u, hu⟩ := ih hfs
    exact ⟨u, (loadImages_cons_of_next hf).trans hu⟩

/-- As for one image: images that load change memory alone, in the same way from any state with it. -/
theorem exists_loadImages_eq_setMem (h : loadImages fs s = .next t) :
    ∃ m, t = s.setMem m ∧
      ∀ s' : State, s'.mem = s.mem → loadImages fs s' = .next (s'.setMem m) := by
  induction fs generalizing s with
  | nil =>
    cases h
    exact ⟨t.mem, rfl, fun s' hmem => hmem ▸ rfl⟩
  | cons f fs ih =>
    obtain ⟨u, hf, hfs⟩ := loadImages_cons_eq_next_iff.mp h
    obtain ⟨m, rfl, hload⟩ := exists_loadImage_eq_setMem hf
    obtain ⟨m', rfl, hrest⟩ := ih hfs
    exact ⟨m', rfl, fun s' hmem =>
      (loadImages_cons_of_next (hload s' hmem)).trans (hrest (s'.setMem m) rfl)⟩

end Images

/-- Settles O57: the cases of one image, and two inductions on the first list. -/
theorem imageCornerCasesAndOrder : Obligations.ImageCornerCasesAndOrder := by
  unfold Obligations.ImageCornerCasesAndOrder
  exact fun s => ⟨rfl, fun _ _ _ hover => loadImage_of_overflow hover s,
    fun _ hshort => loadImage_of_short hshort s, fun _ _ _ => loadImages_append_of_next,
    fun _ _ _ => exists_loadImages_of_append⟩

/-! ## The start of a run -/

theorem launchFrom_of_next {fs : List ImageFile} {s u : State}
    (h : loadImages fs s = .next u) :
    launchFrom s fs = .next ((u.setPc Config.pcStart).setRunning true) := by
  rw [launchFrom, h]

/-- The start-up completes only when the images load. -/
theorem loadImages_of_launchFrom {fs : List ImageFile} {s t : State}
    (h : launchFrom s fs = .next t) :
    ∃ u, loadImages fs s = .next u ∧ t = (u.setPc Config.pcStart).setRunning true := by
  cases hload : loadImages fs s with
  | next u =>
    rw [launchFrom_of_next hload] at h
    cases h
    exact ⟨u, rfl, rfl⟩
  | fault r => rw [launchFrom, hload] at h; cases h
  | refused r => rw [launchFrom, hload] at h; cases h

/-- Settles O58: the images change memory alone and do not look at PC. -/
theorem launchStartsAtPcStart : Obligations.LaunchStartsAtPcStart := by
  unfold Obligations.LaunchStartsAtPcStart
  refine ⟨fun _ => rfl, fun s fs => ⟨fun u h => ⟨_, launchFrom_of_next h⟩, fun t h => ?_,
    fun u h => ?_⟩⟩
  · obtain ⟨u, hload, rfl⟩ := loadImages_of_launchFrom h
    obtain ⟨m, rfl, -⟩ := exists_loadImages_eq_setMem hload
    exact ⟨rfl, rfl, fun _ => rfl, rfl, ⟨rfl, rfl⟩, _, hload, fun _ => rfl⟩
  · obtain ⟨m, rfl, hany⟩ := exists_loadImages_eq_setMem h
    exact hany (s.setPc Config.pcStart) rfl

end Sys2Proof.Machine
end
